-- ==== Sys2Proof/Word.lean ====
section
/-! DEFINITION. The words of X10FC: the widths the spec gives its formats and registers, and nothing else. -/

namespace Sys2Proof

/-- One byte of the message buffer (20_memory R47). -/
abbrev Byte := BitVec 8

/-- One entry of a lookup table, and the composed `data` (00_scope R7, `PAT_W` = 16). -/
abbrev Pattern := BitVec 16

/-- The 40-bit message, format `MSG40` (30_encoding R65). -/
abbrev Message := BitVec 40

/-- The word of the CMD channel, format `CW12` (30_encoding R60). -/
abbrev CmdWord := BitVec 12

/-- The word of the INIT channel, format `IW36` (30_encoding R64). -/
abbrev InitWord := BitVec 36

/-- A pin number, `PIN_W` = 8 (10_state R28). -/
abbrev Pin := BitVec 8

/-- A delay in µs, `DELAY_W` = 20 (10_state R29, R22). -/
abbrev Delay := BitVec 20

end Sys2Proof
end

