-- ==== Sys2Proof/Config.lean ====
section
/-! DEFINITION. The parameters of X10FC: the constants 00_scope R7 fixes, the parameters R8 leaves open, and the one
free value. The contents of the three lookup tables stand in Machine/Lut.lean. -/

namespace Sys2Proof

/-- A line state, one of the four pairs (RTS, DTR) of 10_state R21. -/
inductive LineState where
  /-- (LOW, LOW), "power-off / sync point" -/
  | reset
  /-- (LOW, HIGH), "bit value 0" -/
  | logical0
  /-- (HIGH, LOW), "bit value 1" -/
  | logical1
  /-- (HIGH, HIGH), "dongle powered, idle" -/
  | standby
  deriving DecidableEq, Repr, Inhabited

/-- The three lookup tables, parameters of the block (00_scope R8, 20_memory R39). -/
structure Tables where
  /-- `HOUSE_LUT[0..15]` -/
  house : Vector Pattern 16
  /-- `DEVICE_LUT[0..15]` -/
  device : Vector Pattern 16
  /-- `CMD_LUT[0..7]` -/
  cmd : Vector Pattern 8
  deriving DecidableEq, Repr

namespace Config

/-- `HDR0` (00_scope R7). -/
def hdr0 : Byte := 0xD5#8
/-- `HDR1` (00_scope R7). -/
def hdr1 : Byte := 0xAA#8
/-- `FTR` (00_scope R7). -/
def ftr : Byte := 0xAD#8
/-- `N_BITS`: bit-cells of one transmission (00_scope R7). -/
def nBits : Nat := 40
/-- `N_WRITES`: line-state writes of one complete transmission (00_scope R7). -/
def nWrites : Nat := 82
/-- `T_SETTLE` = 35 ms (00_scope R7). -/
def tSettle : Delay := 35000#20
/-- `T_QUIET` = 1000 ms (00_scope R7). -/
def tQuiet : Delay := 1000000#20
/-- `T_BIT_MIN` = 0.5 ms (00_scope R7). -/
def tBitMin : Nat := 500
/-- `HAS_LINE_FAULT`: whether a line write can fail. OPEN in the spec (00_scope R8); this is the default D12 gives it,
"the more general". DESIGN CHOICE, safe (log 5). -/
def hasLineFault : Bool := true

/-- FREE VALUE: the level of the two physical wires wherever the spec says 'any value' (U2, U3) or 'not defined' (R20).
Applied to the counter `wireDraws` of State; it has no body (log 9). -/
opaque openWire : Nat → LineState

end Config

end Sys2Proof
end

