-- ==== Sys2Proof/Syntax.lean ====
section
/-! DEFINITION. The operations of X10FC as syntax: one constructor of Instr for each row of the opcode table. -/

namespace Sys2Proof

/-- The eight commands of SEND, in the order of the `command` field (30_encoding R63). -/
inductive Command where
  | on
  | off
  | bright
  | dim
  | allOff
  | allOn
  | lampsOff
  | lampsOn
  deriving DecidableEq, Repr

/-- The sixteen house letters (30_encoding R61). The port carries the 4-bit index; the letters serve the assembly syntax
of R75. -/
inductive HouseCode where
  | A | B | C | D | E | F | G | H | I | J | K | L | M | N | O | P
  deriving DecidableEq, Repr

/-- The operations of X10FC (00_scope R2): the eight commands of SEND with the fields of a `CW12` (30_encoding R60), and
INIT with the fields of an `IW36` (R64). The fields have exactly the widths of the ports (10_state R31), so an illegal
device number or bit delay is an instruction, which raises InvalidArgument (R71). -/
inductive Instr where
  /-- `ON`, 40_encoder R84 -/
  | on (house : BitVec 4) (device : BitVec 5)
  /-- `OFF`, 40_encoder R85 -/
  | off (house : BitVec 4) (device : BitVec 5)
  /-- `BRIGHT`, 40_encoder R86 -/
  | bright (house : BitVec 4) (device : BitVec 5)
  /-- `DIM`, 40_encoder R87 -/
  | dim (house : BitVec 4) (device : BitVec 5)
  /-- `ALL_OFF`, 40_encoder R88 -/
  | allOff (house : BitVec 4) (device : BitVec 5)
  /-- `ALL_ON`, 40_encoder R89 -/
  | allOn (house : BitVec 4) (device : BitVec 5)
  /-- `LAMPS_OFF`, 40_encoder R90 -/
  | lampsOff (house : BitVec 4) (device : BitVec 5)
  /-- `LAMPS_ON`, 40_encoder R91 -/
  | lampsOn (house : BitVec 4) (device : BitVec 5)
  /-- `INIT`, 42_command_surface R124 -/
  | init (rtsPin : Pin) (dtrPin : Pin) (bitDelay : Delay)
  deriving DecidableEq, Repr

end Sys2Proof
end

