-- ==== Sys2Proof/WellFormed.lean ====
section
/-! DEFINITION. Which instructions are legal: 30_encoding R71 and R72. An ill-formed instruction still decodes and still
runs: its meaning raises InvalidArgument. -/

namespace Sys2Proof

/-- A device number the spec calls legal: 1..16 (30_encoding R62, R71). -/
def deviceLegal (device : BitVec 5) : Bool :=
  decide (1 ≤ device.toNat) && decide (device.toNat ≤ 16)

/-- A bit delay the spec calls legal: at least 500 µs (30_encoding R64, R71). -/
def delayLegal (bitDelay : Delay) : Bool :=
  decide (500 ≤ bitDelay.toNat)

/-- The legal instructions (30_encoding R72): the device check is made for every command, also those that ignore the
device (R71). -/
def WellFormed : Instr → Bool
  | .on _ device => deviceLegal device
  | .off _ device => deviceLegal device
  | .bright _ device => deviceLegal device
  | .dim _ device => deviceLegal device
  | .allOff _ device => deviceLegal device
  | .allOn _ device => deviceLegal device
  | .lampsOff _ device => deviceLegal device
  | .lampsOn _ device => deviceLegal device
  | .init _ _ bitDelay => delayLegal bitDelay

end Sys2Proof
end

