-- ==== Sys2Proof/Decode.lean ====
section
/-! DEFINITION. From the words of the two channels to instructions and back (30_encoding, sections 1 and 4). -/

namespace Sys2Proof

/-- The word a host puts on a channel. The channel tells the format (30_encoding R59). -/
inductive PortWord where
  /-- the CMD channel, `{cmd_house, cmd_device, cmd_command}` -/
  | cmd (w : CmdWord)
  /-- the INIT channel, `{init_rts_pin, init_dtr_pin, init_bit_delay}` -/
  | init (w : InitWord)
  deriving DecidableEq, Repr

/-! ## Decoding -/

/-- The command a `command` field selects (30_encoding R63). All eight values are commands. -/
def commandOfField (c : BitVec 3) : Command :=
  if c = 0#3 then .on
  else if c = 1#3 then .off
  else if c = 2#3 then .bright
  else if c = 3#3 then .dim
  else if c = 4#3 then .allOff
  else if c = 5#3 then .allOn
  else if c = 6#3 then .lampsOff
  else .lampsOn

/-- The instruction of a command with its two operands. -/
def sendInstr (c : Command) (house : BitVec 4) (device : BitVec 5) : Instr :=
  match c with
  | .on => .on house device
  | .off => .off house device
  | .bright => .bright house device
  | .dim => .dim house device
  | .allOff => .allOff house device
  | .allOn => .allOn house device
  | .lampsOff => .lampsOff house device
  | .lampsOn => .lampsOn house device

/-- Format `CW12` (30_encoding R60): house in bits 11:8, device in bits 7:3, command in bits 2:0. -/
def decodeCmd (w : CmdWord) : Instr :=
  sendInstr (commandOfField (w.extractLsb' 0 3)) (w.extractLsb' 8 4) (w.extractLsb' 3 5)

/-- Format `IW36` (30_encoding R64): rts_pin in bits 35:28, dtr_pin in bits 27:20, bit_delay in bits 19:0. -/
def decodeInit (w : InitWord) : Instr :=
  .init (w.extractLsb' 28 8) (w.extractLsb' 20 8) (w.extractLsb' 0 20)

/-- Decoding a word on its channel. Total: there are no reserved encodings (30_encoding R72). -/
def decode : PortWord → Instr
  | .cmd w => decodeCmd w
  | .init w => decodeInit w

/-! ## Encoding -/

/-- The `command` field of a command (30_encoding R63). -/
def commandField : Command → BitVec 3
  | .on => 0#3
  | .off => 1#3
  | .bright => 2#3
  | .dim => 3#3
  | .allOff => 4#3
  | .allOn => 5#3
  | .lampsOff => 6#3
  | .lampsOn => 7#3

/-- `CW12 = {cmd_house, cmd_device, cmd_command}` (30_encoding R60). -/
def cmdWord (c : Command) (house : BitVec 4) (device : BitVec 5) : CmdWord :=
  house ++ device ++ commandField c

/-- `IW36 = {init_rts_pin, init_dtr_pin, init_bit_delay}` (30_encoding R64). -/
def initWord (rtsPin dtrPin : Pin) (bitDelay : Delay) : InitWord :=
  rtsPin ++ dtrPin ++ bitDelay

/-- The word of an instruction on its channel. -/
def encode : Instr → PortWord
  | .on house device => .cmd (cmdWord .on house device)
  | .off house device => .cmd (cmdWord .off house device)
  | .bright house device => .cmd (cmdWord .bright house device)
  | .dim house device => .cmd (cmdWord .dim house device)
  | .allOff house device => .cmd (cmdWord .allOff house device)
  | .allOn house device => .cmd (cmdWord .allOn house device)
  | .lampsOff house device => .cmd (cmdWord .lampsOff house device)
  | .lampsOn house device => .cmd (cmdWord .lampsOn house device)
  | .init rtsPin dtrPin bitDelay => .init (initWord rtsPin dtrPin bitDelay)

/-- The number a port word is: bit 0 the least significant bit. -/
def portBits : PortWord → Nat
  | .cmd w => w.toNat
  | .init w => w.toNat

/-! ## The opcode table -/

/-- One row of opcode_table.json: an instruction's word has `width` bits and agrees with `pattern` under `mask`. -/
structure OpcodeRow where
  mnemonic : String
  width : Nat
  mask : Nat
  pattern : Nat
  deriving DecidableEq, Repr

/-- The row of each instruction in opcode_table.json. -/
def opcodeRow : Instr → OpcodeRow
  | .on _ _ => ⟨"ON", 12, 0x007, 0x000⟩
  | .off _ _ => ⟨"OFF", 12, 0x007, 0x001⟩
  | .bright _ _ => ⟨"BRIGHT", 12, 0x007, 0x002⟩
  | .dim _ _ => ⟨"DIM", 12, 0x007, 0x003⟩
  | .allOff _ _ => ⟨"ALL_OFF", 12, 0x007, 0x004⟩
  | .allOn _ _ => ⟨"ALL_ON", 12, 0x007, 0x005⟩
  | .lampsOff _ _ => ⟨"LAMPS_OFF", 12, 0x007, 0x006⟩
  | .lampsOn _ _ => ⟨"LAMPS_ON", 12, 0x007, 0x007⟩
  | .init _ _ _ => ⟨"INIT", 36, 0x000000000, 0x000000000⟩

/-! ## Bytes: a word laid out in memory by whoever stores programs (log 16) -/

/-- Why a string of bytes is not the word of an operation. -/
inductive DecodeError where
  /-- neither the 2 bytes of a `CW12` nor the 5 bytes of an `IW36`; safe -/
  | noSuchLength
  /-- a bit above the 12 or 36 bits of the channel is set, so the channel cannot carry the word; safe -/
  | bitsBeyondPort
  deriving DecidableEq, Repr

/-- The first `n` bytes of a number, the least significant first. DESIGN CHOICE (log 16): the channels are parallel ports
and the spec gives their words no byte order. -/
def bytesOfNat : Nat → Nat → List Byte
  | 0, _ => []
  | n + 1, w => BitVec.ofNat 8 w :: bytesOfNat n (w / 256)

/-- The number that bytes, the least significant first, stand for. -/
def natOfBytes : List Byte → Nat
  | [] => 0
  | b :: bs => b.toNat + 256 * natOfBytes bs

/-- The instruction that a string of bytes stands for: 2 bytes are a `CW12`, 5 bytes an `IW36` (30_encoding R59: each
format has one fixed length). -/
def decodeBytes (bytes : List Byte) : Except DecodeError Instr :=
  let w := natOfBytes bytes
  if bytes.length = 2 then
    if w < 2 ^ 12 then .ok (decode (.cmd (BitVec.ofNat 12 w))) else .error .bitsBeyondPort
  else if bytes.length = 5 then
    if w < 2 ^ 36 then .ok (decode (.init (BitVec.ofNat 36 w))) else .error .bitsBeyondPort
  else .error .noSuchLength

/-- The bytes of an instruction. -/
def encodeBytes (i : Instr) : List Byte :=
  match encode i with
  | .cmd w => bytesOfNat 2 w.toNat
  | .init w => bytesOfNat 5 w.toNat

/-- The instruction the decoder reads from `nbits` bits `w`, bit 0 the least significant bit of the word. -/
def decodeTableWord (nbits w : Nat) : Option Instr :=
  match decodeBytes (bytesOfNat ((nbits + 7) / 8) w) with
  | .ok i => some i
  | .error _ => none

end Sys2Proof
end

