-- ==== Sys2Proof/Machine/State.lean ====
section
/-! DEFINITION. The state of X10FC (10_state R13), its inputs and observations, the state after reset (R38), and the
reasons a step can stop. -/

namespace Sys2Proof.Machine

/-- The sequencer's phase: exactly six values (10_state R18). -/
inductive Phase where
  | idle
  | reset
  | settle
  | data
  | gap
  | quiet
  deriving DecidableEq, Repr

/-- The result of an operation (10_state R26, 60_exceptions R145). -/
inductive ErrCode where
  /-- `ERR_NONE`, 0 -/
  | errNone
  /-- `ERR_INVALID_ARGUMENT`, 1 -/
  | errInvalidArgument
  /-- `ERR_NOT_INITIALIZED`, 2 -/
  | errNotInitialized
  /-- `ERR_LINE_WRITE`, 3 -/
  | errLineWrite
  deriving DecidableEq, Repr

/-- An event of the trace (41_transmitter R113). -/
inductive Event where
  /-- `W(s)`: line state `s` written -/
  | wrote (s : LineState)
  /-- `F(s)`: the write of `s` failed -/
  | failed (s : LineState)
  /-- `H(t)`: held for `t` µs -/
  | held (t : Nat)
  deriving DecidableEq, Repr

/-- One completion pulse: when, and with which `rsp_err` (10_state R34). -/
structure Response where
  time : Nat
  code : ErrCode
  deriving DecidableEq, Repr

/-- LineConfig: the pin assignment and the bit delay in µs (10_state R28, R29). -/
structure LineConfig where
  rtsPin : Pin
  dtrPin : Pin
  bitDelay : Delay
  deriving DecidableEq, Repr

/-- What the host offers together: one operation, or an INIT and a SEND at once (30_encoding R75, 42_command_surface
R133). -/
inductive HostLine where
  | initOnly (w : InitWord)
  | sendOnly (c : CmdWord)
  | both (w : InitWord) (c : CmdWord)
  deriving DecidableEq, Repr

/-- The state. First the architectural state of 10_state R13; then the response pulse (R34) and the clock level's
prescaler (R23); then the levels of the input ports (R31), which the model holds because a step is a function of State
alone (log 2); then the observations of R36 (log 17); last the two fields behind the free value of the wires (log 9). -/
structure State where
  /-- `MSG` (R14) -/
  msg : Message
  /-- `phase` (R18) -/
  phase : Phase
  /-- `bit_idx` (R19) -/
  bitIdx : BitVec 6
  /-- `dwell`, µs left of the phase (R22) -/
  dwell : Delay
  /-- `rts`, HIGH = true (R20) -/
  rts : Bool
  /-- `dtr`, HIGH = true (R20) -/
  dtr : Bool
  /-- `line_oe` (R20) -/
  lineOe : Bool
  /-- `initialized` (R24) -/
  initialized : Bool
  /-- `err` (R26) -/
  err : ErrCode
  /-- `RTS_PIN`, `DTR_PIN`, `BIT_DELAY` (R28, R29) -/
  config : LineConfig
  /-- `rsp_valid` with `rsp_err`: some e in the step an operation completes with e (R34) -/
  rsp : Option ErrCode
  /-- `presc`, clock-level models only (R23) -/
  presc : Nat
  /-- the INIT channel: some w while `init_valid` = 1 with operands w (R32) -/
  initPort : Option InitWord
  /-- the CMD channel: some c while `cmd_valid` = 1 with operands c (R33) -/
  cmdPort : Option CmdWord
  /-- what the host offers next, each line as soon as both channels are free (30_encoding R75) -/
  program : List HostLine
  /-- the levels of `rst` in the coming steps; an absent one is 0 (R31) -/
  rstInputs : List Bool
  /-- the answers of `line_fault_i` to the coming line writes; an absent one is 0 (R35) -/
  lineFaults : List Bool
  /-- the trace, oldest event first (41_transmitter R113) -/
  trace : List Event
  /-- elapsed µs (R36) -/
  now : Nat
  /-- the completion pulses so far, oldest first (42_command_surface R134) -/
  responses : List Response
  /-- whether the physical wires are known to carry `rts` and `dtr` (U2, U3) -/
  wireKnown : Bool
  /-- which draw of the free value the wires have while they are not known -/
  wireDraws : Nat
  deriving DecidableEq, Repr

/-- The state right after hardware reset: the table of 10_state R38. DESIGN CHOICE for `msg`, whose value R38 leaves
unspecified (log 6), and for the inputs and observations, which are no state of X10FC (log 7). -/
def State.reset : State where
  msg := 0#40
  phase := .idle
  bitIdx := 0#6
  dwell := 0#20
  rts := false
  dtr := false
  lineOe := false
  initialized := false
  err := .errNone
  config := ⟨0#8, 0#8, 0#20⟩
  rsp := none
  presc := 0
  initPort := none
  cmdPort := none
  program := []
  rstInputs := []
  lineFaults := []
  trace := []
  now := 0
  responses := []
  wireKnown := false
  wireDraws := 0

/-- Why the machine stops. The three errors of 60_exceptions are no faults: they are taken. -/
inductive Fault where
  /-- `bit_idx` is 40..63 in phase DATA or GAP: "stuck (no rule applies)", 93_implementation_defined U9. Raised by the end
  of a dwell; no state reached from reset raises it. Safe (log 13). -/
  | bitIdxOutOfRange
  deriving DecidableEq, Repr

/-- Why an instruction has no meaning. -/
inductive Refusal where
  /-- The instruction has no meaning yet; raised by an arm of exec, none of them here. Safe. -/
  | notModelled (mnemonic : String)
  deriving DecidableEq, Repr

end Sys2Proof.Machine
end

