-- ==== Sys2Proof/Machine/Lut.lean ====
section
/-! DEFINITION. The three lookup tables: their default contents (20_memory R42 to R44), the law every choice of them obeys
(R45), and reading one element (R39, R50). -/

namespace Sys2Proof.Machine

/-- `HOUSE_LUT` (20_memory R42), houses A to P. A, M and P are the source's; the rest are the spec's marked defaults GK1.
PRESUMED (log 4). -/
def houseLut : Vector Pattern 16 :=
  #v[0x6000#16, 0x7000#16, 0x4000#16, 0x5000#16, 0x8000#16, 0x9000#16, 0xA000#16, 0xB000#16,
     0xE000#16, 0xF000#16, 0xC000#16, 0xD000#16, 0x0000#16, 0x1000#16, 0x2000#16, 0x3000#16]

/-- `DEVICE_LUT` (20_memory R43), devices 1 to 16. 1 and 16 are the source's; the rest are the spec's marked defaults GK2.
PRESUMED (log 4). -/
def deviceLut : Vector Pattern 16 :=
  #v[0x0000#16, 0x0010#16, 0x0008#16, 0x0018#16, 0x0040#16, 0x0050#16, 0x0048#16, 0x0058#16,
     0x0400#16, 0x0410#16, 0x0408#16, 0x0418#16, 0x0440#16, 0x0450#16, 0x0448#16, 0x0458#16]

/-- `CMD_LUT` (20_memory R44), On to LampsOn. On, Off and Bright are the source's; the rest are the spec's marked defaults
GK3. PRESUMED (log 4). -/
def cmdLut : Vector Pattern 8 :=
  #v[0x0000#16, 0x0020#16, 0x0088#16, 0x0098#16, 0x0080#16, 0x0091#16, 0x0084#16, 0x0094#16]

/-- The tables this machine is built with. -/
def lut : Tables := ⟨houseLut, deviceLut, cmdLut⟩

/-- Constraint 1 of 20_memory R45: the eight entries the source prints. -/
def Tables.sourceEntries (t : Tables) : Bool :=
  t.house[0] == 0x6000#16 && t.house[12] == 0x0000#16 && t.house[15] == 0x3000#16
    && t.device[0] == 0x0000#16 && t.device[15] == 0x0458#16
    && t.cmd[0] == 0x0000#16 && t.cmd[1] == 0x0020#16 && t.cmd[2] == 0x0088#16

/-- Constraint 2 of 20_memory R45: the patterns ORed into one message share no bit. A device pattern meets a command
pattern only for On and Off (90_conflicts C3). -/
def Tables.lossless (t : Tables) : Bool :=
  (t.house.toList.all fun h => t.cmd.toList.all fun c => h &&& c == 0#16)
    && (t.house.toList.all fun h => t.device.toList.all fun d => h &&& d == 0#16)
    && (t.device.toList.all fun d => (t.cmd.toList.take 2).all fun c => d &&& c == 0#16)

/-- What every choice of the tables obeys (20_memory R45). -/
def Tables.lawful (t : Tables) : Bool :=
  Tables.sourceEntries t && Tables.lossless t

/-- One table read `MemRead(space, index, 2)` (00_scope R10, 20_memory R39). The index is in range by its type: no table is
ever read outside (R50). -/
inductive TableRead where
  | house (index : Fin 16)
  | device (index : Fin 16)
  | cmd (index : Fin 8)
  deriving DecidableEq, Repr

/-- The element a table read returns, all 16 bits of it (20_memory R51). -/
def tableRead (t : Tables) : TableRead → Pattern
  | .house i => t.house[i]
  | .device i => t.device[i]
  | .cmd i => t.cmd[i]

end Sys2Proof.Machine
end

