-- ==== Sys2Proof/Machine/Operands.lean ====
section
/-! DEFINITION. The operands of SEND and INIT: their checks (40_encoder R78, 42_command_surface R125) and how those of SEND
become the message (30_encoding R67, 40_encoder R79). Natural numbers throughout, as for a model with wider operand types
(R71; log 18). -/

namespace Sys2Proof.Machine

/-- The index of a command (30_encoding R63). -/
def commandIndex : Command → Nat
  | .on => 0
  | .off => 1
  | .bright => 2
  | .dim => 3
  | .allOff => 4
  | .allOn => 5
  | .lampsOff => 6
  | .lampsOn => 7

/-- `Valid` (40_encoder R78). -/
abbrev validOperands (house device command : Nat) : Prop :=
  house ≤ 15 ∧ 1 ≤ device ∧ device ≤ 16 ∧ command ≤ 7

/-- `UsesDevice`: On and Off only (40_encoder R79, R80). -/
abbrev usesDevice (command : Nat) : Prop :=
  command = 0 ∨ command = 1

/-- The table reads of one SEND, in order: three for On and Off, two for the other commands, none for invalid operands
(40_encoder R95). The device table is read at `device - 1` (20_memory R41). -/
def tableReads (house device command : Nat) : List TableRead :=
  if h : validOperands house device command then
    [.house ⟨house, by omega⟩]
      ++ (if usesDevice command then [.device ⟨device - 1, by omega⟩] else [])
      ++ [.cmd ⟨command, by omega⟩]
  else []

/-- `data`: the OR of the patterns read (40_encoder R79, R83). -/
def composeData (t : Tables) (reads : List TableRead) : Pattern :=
  reads.foldl (fun acc r => acc ||| tableRead t r) 0#16

/-- The five bytes of a message around its data: header, data with the more significant byte first, footer (20_memory R47,
R48, 30_encoding R65). -/
def frameMessage (data : Pattern) : Message :=
  Config.hdr0 ++ Config.hdr1 ++ data.extractLsb' 8 8 ++ data.extractLsb' 0 8 ++ Config.ftr

/-- `Encode` (40_encoder R79); none is its InvalidArgument. -/
def encodeMessage (t : Tables) (house device command : Nat) : Option Message :=
  if validOperands house device command then
    some (frameMessage (composeData t (tableReads house device command)))
  else none

/-- Byte `j` of a message, byte 0 in bits 39:32 (10_state R14, 20_memory R47). -/
def msgByte (m : Message) (j : Nat) : Byte :=
  m.extractLsb' (8 * (4 - j)) 8

/-- A message with the header and footer bytes of the protocol (40_encoder R92). -/
def msgFramed (m : Message) : Bool :=
  msgByte m 0 == Config.hdr0 && msgByte m 1 == Config.hdr1 && msgByte m 4 == Config.ftr

/-- A bit delay INIT accepts (42_command_surface R125). -/
def bitDelayAccepted (bitDelay : Delay) : Bool :=
  decide (Config.tBitMin ≤ bitDelay.toNat)

end Sys2Proof.Machine
end

