-- ==== Sys2Proof/Machine/Flags.lean ====
section
/-! DEFINITION. What the state shows: busy and the ready outputs, the codes of phase, errors and line states, STATUS, and
the output ports (10_state sections 3 to 8). X10FC computes no arithmetic flag (R27). -/

namespace Sys2Proof.Machine

/-- `RTS` of a line state (10_state R21), HIGH = true. -/
def lineRts : LineState → Bool
  | .reset => false
  | .logical0 => false
  | .logical1 => true
  | .standby => true

/-- `DTR` of a line state (10_state R21), HIGH = true. -/
def lineDtr : LineState → Bool
  | .reset => false
  | .logical0 => true
  | .logical1 => false
  | .standby => true

/-- The line state of a pair of levels (10_state R21). -/
def lineOfLevels (rts dtr : Bool) : LineState :=
  match rts, dtr with
  | false, false => .reset
  | false, true => .logical0
  | true, false => .logical1
  | true, true => .standby

/-- `SYM2`, `{rts, dtr}` (30_encoding R68). -/
def lineCode (s : LineState) : BitVec 2 :=
  BitVec.ofBool (lineRts s) ++ BitVec.ofBool (lineDtr s)

/-- The 3-bit code of a phase (10_state R18). -/
def phaseCode : Phase → BitVec 3
  | .idle => 0#3
  | .reset => 1#3
  | .settle => 2#3
  | .data => 3#3
  | .gap => 4#3
  | .quiet => 5#3

/-- The 2-bit code of a result (60_exceptions R145). -/
def errBits : ErrCode → BitVec 2
  | .errNone => 0#2
  | .errInvalidArgument => 1#2
  | .errNotInitialized => 2#2
  | .errLineWrite => 3#2

/-- `{rts, dtr}` as a line state. -/
def State.lines (s : State) : LineState := lineOfLevels s.rts s.dtr

/-- `busy` (10_state R25). -/
abbrev State.busy (s : State) : Prop := s.phase ≠ .idle

/-- `init_ready` (10_state R32). -/
def State.initReady (s : State) : Bool := decide (s.phase = .idle)

/-- `cmd_ready`: an INIT offered in the same step goes first (10_state R33). -/
def State.cmdReady (s : State) : Bool := decide (s.phase = .idle) && s.initPort.isNone

/-- `STATUS = {initialized, busy, err, phase, bit_idx}` (10_state R30). -/
def State.status (s : State) : BitVec 13 :=
  BitVec.ofBool s.initialized ++ BitVec.ofBool (decide s.busy) ++ errBits s.err ++ phaseCode s.phase ++ s.bitIdx

/-- The level of the two physical wires. It is that of the registers while the lines are driven and the last line-state
write succeeded; otherwise the spec says 'any value' (10_state R20, U2, U3), and it is a free value (log 9). -/
def State.wires (s : State) : LineState :=
  if s.lineOe = true ∧ s.wireKnown = true then s.lines else Config.openWire s.wireDraws

/-- The output ports of 10_state R31. `rts_o` and `dtr_o` are valid while `line_oe` = 1 (R35), `rsp_err` while `rsp_valid`
= 1 (R34). -/
structure OutputPorts where
  initReady : Bool
  cmdReady : Bool
  rsp : Option (BitVec 2)
  busy : Bool
  initialized : Bool
  err : BitVec 2
  phaseO : BitVec 3
  bitIdxO : BitVec 6
  cfgRtsPin : Pin
  cfgDtrPin : Pin
  cfgBitDelay : Delay
  linesO : Option LineState
  lineOe : Bool
  deriving DecidableEq, Repr

/-- The levels of the output ports in a state (10_state R31). -/
def State.ports (s : State) : OutputPorts where
  initReady := s.initReady
  cmdReady := s.cmdReady
  rsp := s.rsp.map errBits
  busy := decide s.busy
  initialized := s.initialized
  err := errBits s.err
  phaseO := phaseCode s.phase
  bitIdxO := s.bitIdx
  cfgRtsPin := s.config.rtsPin
  cfgDtrPin := s.config.dtrPin
  cfgBitDelay := s.config.bitDelay
  linesO := if s.lineOe then some s.lines else none
  lineOe := s.lineOe

end Sys2Proof.Machine
end

