-- ==== Sys2Proof/Machine/Ops.lean ====
section
/-! DEFINITION. The operations the meanings share: completing an operation, taking an error, writing the lines, entering a
phase, starting a transmission, hardware reset. -/

namespace Sys2Proof.Machine

/-! ## Completion and errors -/

/-- `complete(e)`: `err` takes the result and `rsp_valid` pulses with it (41_transmitter R100, 10_state R34;
log 21, log 24). -/
def complete (e : ErrCode) (s : State) : State :=
  { s with err := e, rsp := some e, responses := s.responses ++ [⟨s.now, e⟩] }

/-- TAKING AN ERROR, the one shared operation: `raise E` (60_exceptions R150). The result goes to `err` and the response
pulse, the sequencer to IDLE; nothing is saved, and `initialized`, `line_oe`, LineConfig and the tables keep their values.
There is no return instruction: the next operation is accepted as usual and its completion overwrites `err` (R153). -/
def raiseError (e : ErrCode) (s : State) : State :=
  { complete e s with phase := .idle, dwell := 0#20 }

/-- An operation is accepted only in IDLE; offered while busy it waits and has no effect (42_command_surface R126, R131;
log 14). -/
def whenIdle (s : State) (accepted : State) : State :=
  if s.phase = .idle then accepted else s

/-! ## The line port -/

/-- The answer of the line-fault input to the next line write; without `HAS_LINE_FAULT` it is constantly 0
(10_state R35). -/
def lineFault (hasLineFault : Bool) (s : State) : Bool :=
  hasLineFault && s.lineFaults.headD false

/-- `{rts, dtr} <- s`, both in the same step (20_memory R53); the fault input has been sampled. -/
def driveLines (ls : LineState) (s : State) : State :=
  { s with rts := lineRts ls, dtr := lineDtr ls, lineFaults := s.lineFaults.tail }

/-- `LineWrite(s)` (20_memory R52), then what follows it if it succeeds. A failed write raises LineWriteError, and nothing
follows it (41_transmitter R110); the level of the wires is then unknown (U3). -/
def lineWrite (ls : LineState) (andThen : State → State) (s : State) : State :=
  let t := driveLines ls s
  if lineFault Config.hasLineFault s then
    raiseError .errLineWrite
      { t with trace := s.trace ++ [.failed ls], wireKnown := false, wireDraws := s.wireDraws + 1 }
  else
    andThen { t with trace := s.trace ++ [.wrote ls], wireKnown := true }

/-! ## The sequencer's helpers -/

/-- `BitOf(m, i) = m[39 - i]` (41_transmitter R98). -/
def bitOf (m : Message) (i : Nat) : Bool := m.getLsbD (39 - i)

/-- `StateOfBit(b) = {b, ~b}` (41_transmitter R99). -/
def stateOfBit (b : Bool) : LineState := lineOfLevels b (!b)

/-- The data symbol of bit-cell `i` (41_transmitter R100, step 3a). -/
def dataSymbol (m : Message) (i : Nat) : LineState := stateOfBit (bitOf m i)

/-- The dwell of a phase for a bit delay `d` (10_state R18, last column). IDLE has none, and `dwell` is 0 there
(60_exceptions R157). -/
def phaseDuration (p : Phase) (d : Delay) : Delay :=
  match p with
  | .idle => 0#20
  | .reset => d
  | .settle => Config.tSettle
  | .data => d
  | .gap => d
  | .quiet => Config.tQuiet

/-- Entering a phase loads its dwell (10_state R22). -/
def enterPhase (p : Phase) (s : State) : State :=
  { s with phase := p, dwell := phaseDuration p s.config.bitDelay }

/-- `StartTransmit` (41_transmitter R101): the Reset write, whatever the lines were, and the RESET phase. -/
def startTransmit (s : State) : State :=
  lineWrite .reset (enterPhase .reset) s

/-! ## Hardware reset -/

/-- `rst` = 1 in a step (70_reset_and_hazards R167): every piece of state takes its reset value. The input levels and the
observations are no state of X10FC and stay (R167: the trace "is not cleared by anything"; log 22). -/
def hardwareReset (s : State) : State :=
  { State.reset with
    initPort := s.initPort
    cmdPort := s.cmdPort
    program := s.program
    rstInputs := s.rstInputs
    lineFaults := s.lineFaults
    trace := s.trace
    now := s.now
    responses := s.responses
    wireDraws := s.wireDraws + 1 }

end Sys2Proof.Machine
end

