-- ==== Sys2Proof/Machine/Init.lean ====
section
/-! DEFINITION. INIT (42_command_surface R124 to R127). -/

namespace Sys2Proof.Machine

/-- Enabling the lines: the first INIT since reset, with `line_oe` still 0, puts LOW, LOW into the two registers. That is no
line-state write: no event, no fault (42_command_surface R124). What the wires carry until the first transmission is 'any
value' (U2; log 8, log 9). A later INIT leaves `rts` and `dtr` alone (R127). -/
def enableLines (s : State) : State :=
  if s.lineOe then s
  else { s with lineOe := true, rts := false, dtr := false, wireKnown := false, wireDraws := s.wireDraws + 1 }

/-- Storing LineConfig (42_command_surface R124). -/
def configure (rtsPin dtrPin : Pin) (bitDelay : Delay) (s : State) : State :=
  { s with config := ⟨rtsPin, dtrPin, bitDelay⟩, initialized := true }

/-- `INIT` (42_command_surface R124): a bit delay below 500 µs raises InvalidArgument and changes nothing else (R125); a
further INIT is accepted and overwrites LineConfig (R127; log 12). -/
def execInit (rtsPin dtrPin : Pin) (bitDelay : Delay) (s : State) : Host.Outcome State Fault Refusal :=
  .next (whenIdle s
    (if bitDelayAccepted bitDelay then
      complete .errNone (enableLines (configure rtsPin dtrPin bitDelay s))
    else raiseError .errInvalidArgument s))

end Sys2Proof.Machine
end

