-- ==== Sys2Proof/Machine/Transmitter.lean ====
section
/-! DEFINITION. The Transmitter: what happens when the dwell of a phase ends (41_transmitter R101 to R106), and the trace
and the times of a complete transmission as functions (R109, R114, 70_reset_and_hazards R184). -/

namespace Sys2Proof.Machine

/-! ## The end of a dwell -/

/-- The hold of the phase that ends, as an event of the trace (41_transmitter R113). -/
def endHold (s : State) : State :=
  { s with trace := s.trace ++ [.held (phaseDuration s.phase s.config.bitDelay).toNat] }

/-- The end of RESET (41_transmitter R101). -/
def endReset (s : State) : State :=
  lineWrite .standby (enterPhase .settle) (endHold s)

/-- The end of SETTLE (41_transmitter R102): `bit_idx <- 0` stands before the write and takes effect even if it fails
(R110). -/
def endSettle (s : State) : State :=
  lineWrite (dataSymbol s.msg 0) (enterPhase .data) { endHold s with bitIdx := 0#6 }

/-- The end of DATA (41_transmitter R103). -/
def endData (s : State) : State :=
  lineWrite .standby (enterPhase .gap) (endHold s)

/-- The end of GAP with bit-cells left (41_transmitter R104). -/
def nextCell (s : State) : State :=
  lineWrite (dataSymbol s.msg (s.bitIdx.toNat + 1)) (enterPhase .data) { endHold s with bitIdx := s.bitIdx + 1#6 }

/-- The end of GAP after the last bit-cell: no line write (41_transmitter R104). -/
def lastCell (s : State) : State :=
  enterPhase .quiet (endHold s)

/-- The end of QUIET (41_transmitter R105). -/
def endQuiet (s : State) : State :=
  complete .errNone { endHold s with phase := .idle, dwell := 0#20 }

/-- The end of a phase's dwell. IDLE is not timed (41_transmitter R106). A `bit_idx` above 39 in DATA or GAP is stuck (U9). -/
def endOfDwell (s : State) : Host.Outcome State Fault Refusal :=
  match s.phase with
  | .idle => .next s
  | .reset => .next (endReset s)
  | .settle => .next (endSettle s)
  | .data => if s.bitIdx.toNat ≤ 39 then .next (endData s) else .fault .bitIdxOutOfRange
  | .gap =>
    if s.bitIdx.toNat < 39 then .next (nextCell s)
    else if s.bitIdx.toNat = 39 then .next (lastCell s)
    else .fault .bitIdxOutOfRange
  | .quiet => .next (endQuiet s)

/-- One phase of a transmission: its whole dwell passes, then it ends (00_scope R9; log 10). -/
def runPhase (s : State) : Host.Outcome State Fault Refusal :=
  endOfDwell { s with now := s.now + s.dwell.toNat }

/-! ## A complete transmission as a function -/

/-- The events of bit-cell `i` (41_transmitter R114). -/
def cellTrace (m : Message) (d : Nat) (i : Nat) : List Event :=
  [.wrote (dataSymbol m i), .held d, .wrote .standby, .held d]

/-- The events of the first `n` bit-cells. -/
def cellsTrace (m : Message) (d : Nat) : Nat → List Event
  | 0 => []
  | n + 1 => cellsTrace m d n ++ cellTrace m d n

/-- `TraceOf(m, d)` (41_transmitter R114). -/
def traceOf (m : Message) (d : Nat) : List Event :=
  [.wrote .reset, .held d, .wrote .standby, .held Config.tSettle.toNat]
    ++ cellsTrace m d Config.nBits ++ [.held Config.tQuiet.toNat]

/-- `T_total(d)` in µs (41_transmitter R109). -/
def totalTime (d : Nat) : Nat := 1035000 + 81 * d

/-- The time of the `k`-th line write after the accepting step, `k` = 1..82 (70_reset_and_hazards R184). -/
def lineWriteTime (d : Nat) (k : Nat) : Nat :=
  if k ≤ 1 then 0 else if k = 2 then d else d + 35000 + (k - 3) * d

/-- A trace as (state, duration) pairs, consecutive holds merged (41_transmitter R114); `acc` holds the pairs so far, the
latest first. A failed write starts no pair. -/
def statePairsFrom (acc : List (LineState × Nat)) : List Event → List (LineState × Nat)
  | [] => acc.reverse
  | .wrote s :: es => statePairsFrom ((s, 0) :: acc) es
  | .failed _ :: es => statePairsFrom acc es
  | .held t :: es =>
    match acc with
    | [] => statePairsFrom [] es
    | (s, u) :: rest => statePairsFrom ((s, u + t) :: rest) es

/-- The pair view of a trace (41_transmitter R114, 90_conflicts C6). -/
def statePairs (es : List Event) : List (LineState × Nat) := statePairsFrom [] es

/-- The line state a phase holds (10_state R18): none in IDLE, where the last one written stays. -/
def heldLine (s : State) : Option LineState :=
  match s.phase with
  | .idle => none
  | .reset => some .reset
  | .settle => some .standby
  | .data => some (dataSymbol s.msg s.bitIdx.toNat)
  | .gap => some .standby
  | .quiet => some .standby

/-! ## The per-line view (41_transmitter R121) -/

/-- What one line does at a write. -/
inductive Edge where
  | unmoved
  | rises
  | falls
  deriving DecidableEq, Repr

/-- The move of a line from one level to another. -/
def edgeOf (before after : Bool) : Edge :=
  match before, after with
  | false, true => .rises
  | true, false => .falls
  | false, false => .unmoved
  | true, true => .unmoved

/-- The moves of RTS and DTR at a write from one line state to another (41_transmitter R121). -/
def writeEdges (before after : LineState) : Edge × Edge :=
  (edgeOf (lineRts before) (lineRts after), edgeOf (lineDtr before) (lineDtr after))

end Sys2Proof.Machine
end

