-- ==== Sys2Proof/Machine/Send.lean ====
section
/-! DEFINITION. The eight commands of SEND (40_encoder R84 to R91): one shared accepting step (42_command_surface R129) and
one meaning per command. -/

namespace Sys2Proof.Machine

/-- The accepting step of SEND (42_command_surface R129) over tables `t`: InvalidArgument first, then NotInitialized
(60_exceptions R147), else the message is stored and its transmission starts. -/
def send (t : Tables) (c : Command) (house : BitVec 4) (device : BitVec 5) (s : State) : State :=
  whenIdle s
    (match encodeMessage t house.toNat device.toNat (commandIndex c) with
    | none => raiseError .errInvalidArgument s
    | some m =>
      if s.initialized then startTransmit { s with msg := m }
      else raiseError .errNotInitialized s)

/-- `ON` (40_encoder R84). -/
def execOn (house : BitVec 4) (device : BitVec 5) (s : State) : Host.Outcome State Fault Refusal :=
  .next (send lut .on house device s)

/-- `OFF` (40_encoder R85). -/
def execOff (house : BitVec 4) (device : BitVec 5) (s : State) : Host.Outcome State Fault Refusal :=
  .next (send lut .off house device s)

/-- `BRIGHT` (40_encoder R86). -/
def execBright (house : BitVec 4) (device : BitVec 5) (s : State) : Host.Outcome State Fault Refusal :=
  .next (send lut .bright house device s)

/-- `DIM` (40_encoder R87). -/
def execDim (house : BitVec 4) (device : BitVec 5) (s : State) : Host.Outcome State Fault Refusal :=
  .next (send lut .dim house device s)

/-- `ALL_OFF` (40_encoder R88). -/
def execAllOff (house : BitVec 4) (device : BitVec 5) (s : State) : Host.Outcome State Fault Refusal :=
  .next (send lut .allOff house device s)

/-- `ALL_ON` (40_encoder R89). -/
def execAllOn (house : BitVec 4) (device : BitVec 5) (s : State) : Host.Outcome State Fault Refusal :=
  .next (send lut .allOn house device s)

/-- `LAMPS_OFF` (40_encoder R90). -/
def execLampsOff (house : BitVec 4) (device : BitVec 5) (s : State) : Host.Outcome State Fault Refusal :=
  .next (send lut .lampsOff house device s)

/-- `LAMPS_ON` (40_encoder R91). -/
def execLampsOn (house : BitVec 4) (device : BitVec 5) (s : State) : Host.Outcome State Fault Refusal :=
  .next (send lut .lampsOn house device s)

end Sys2Proof.Machine
end

