-- ==== Sys2Proof/Machine/Dispatch.lean ====
section
/-! DEFINITION. One arm per instruction: the operation offered to the machine in a state. -/

namespace Sys2Proof.Machine

def exec (i : Instr) (s : State) : Host.Outcome State Fault Refusal :=
  match i with
  | .on house device => Sys2Proof.Machine.execOn house device s
  | .off house device => Sys2Proof.Machine.execOff house device s
  | .bright house device => Sys2Proof.Machine.execBright house device s
  | .dim house device => Sys2Proof.Machine.execDim house device s
  | .allOff house device => Sys2Proof.Machine.execAllOff house device s
  | .allOn house device => Sys2Proof.Machine.execAllOn house device s
  | .lampsOff house device => Sys2Proof.Machine.execLampsOff house device s
  | .lampsOn house device => Sys2Proof.Machine.execLampsOn house device s
  | .init rtsPin dtrPin bitDelay => Sys2Proof.Machine.execInit rtsPin dtrPin bitDelay s

end Sys2Proof.Machine
end

