-- ==== Sys2Proof/Machine/Handshake.lean ====
section
/-! DEFINITION. The host's side of a step: what it offers on the channels and when an offer is accepted (10_state R32, R33,
42_command_surface R131 to R135). -/

namespace Sys2Proof.Machine

/-- The host offers its next line as soon as neither channel has an offer waiting (30_encoding R75; log 20). -/
def loadPorts (s : State) : State :=
  if s.initPort = none ∧ s.cmdPort = none then
    match s.program with
    | [] => s
    | .initOnly w :: rest => { s with initPort := some w, program := rest }
    | .sendOnly c :: rest => { s with cmdPort := some c, program := rest }
    | .both w c :: rest => { s with initPort := some w, cmdPort := some c, program := rest }
  else s

/-- Whether `rst` is 1 in this step (10_state R31). -/
def rstAsserted (s : State) : Bool := s.rstInputs.headD false

/-- The beginning of a step: the input levels of the step are taken, and the response pulse of the step before is over
(10_state R34). -/
def beginStep (s : State) : State :=
  { loadPorts s with rsp := none, rstInputs := s.rstInputs.tail }

/-- IDLE: an offered INIT is accepted, else an offered SEND (42_command_surface R133), else nothing happens
(41_transmitter R106). An accepted offer is withdrawn. -/
def acceptOffer (s : State) : Host.Outcome State Fault Refusal :=
  match s.initPort, s.cmdPort with
  | some w, _ => exec (decode (.init w)) { s with initPort := none }
  | none, some c => exec (decode (.cmd c)) { s with cmdPort := none }
  | none, none => .next s

/-- `s` with one operation offered, and nothing in its way: no other offer, `rst` not asserted, the sequencer in IDLE. -/
def offerWord (w : PortWord) (s : State) : State :=
  { s with
    initPort := match w with
      | .init v => some v
      | .cmd _ => none
    cmdPort := match w with
      | .init _ => none
      | .cmd c => some c
    rstInputs := if rstAsserted s then [] else s.rstInputs
    phase := .idle
    dwell := 0#20 }

/-- The port word of a table row of `nbits` bits: up to two bytes are a `CW12`, more an `IW36`. -/
def tablePortWord (nbits w : Nat) : PortWord :=
  if nbits ≤ 16 then .cmd (BitVec.ofNat 12 w) else .init (BitVec.ofNat 36 w)

/-- A program to be offered from the next step on (30_encoding R75). -/
def withProgram (p : List HostLine) (s : State) : State := { s with program := p }

end Sys2Proof.Machine
end

