-- ==== Sys2Proof/Machine/Step.lean ====
section
/-! DEFINITION. One step of the machine, at phase level (00_scope R9): `rst`, or one accepted operation, or one phase. -/

namespace Sys2Proof.Machine

/-- One step (log 1, log 11). Reset has priority over everything (70_reset_and_hazards R167); while busy the sequencer runs and no offer is
accepted (10_state R32, R33). -/
def step (s : State) : Host.Outcome State Fault Refusal :=
  if rstAsserted s then .next (hardwareReset (beginStep s))
  else if s.phase = .idle then acceptOffer (beginStep s)
  else runPhase (beginStep s)

/-- `s` with the table word offered on its channel, so that the next step accepts it (log 3). -/
def State.withFetchWord (s : State) (nbits w : Nat) : State :=
  offerWord (tablePortWord nbits w) s

end Sys2Proof.Machine
end

