-- ==== Sys2Proof/Machine/Assembly.lean ====
section
/-! DEFINITION. The host's side before a channel: the assembly syntax of 30_encoding R75 and R76 as data, its programs, and
the conversion of a bit delay from milliseconds (42_command_surface R128). -/

namespace Sys2Proof.Machine

/-- A line of the assembly syntax (30_encoding R75). The device may be left out (R76; log 19). -/
inductive AsmLine where
  | init (rts dtr delayUs : Nat)
  | send (house : HouseCode) (device : Option Nat) (mnemonic : Command)
  deriving DecidableEq, Repr

/-- Why a line does not assemble. -/
inductive AsmError where
  /-- a number is outside the range R75 gives it; safe -/
  | outOfRange
  /-- the device is left out of a command that is no broadcast command; safe -/
  | deviceMissing
  deriving DecidableEq, Repr

/-- The index of a house letter (30_encoding R61). -/
def houseIndex : HouseCode → BitVec 4
  | .A => 0#4
  | .B => 1#4
  | .C => 2#4
  | .D => 3#4
  | .E => 4#4
  | .F => 5#4
  | .G => 6#4
  | .H => 7#4
  | .I => 8#4
  | .J => 9#4
  | .K => 10#4
  | .L => 11#4
  | .M => 12#4
  | .N => 13#4
  | .O => 14#4
  | .P => 15#4

/-! ## Spellings -/

/-- The letter of a house (30_encoding R61, R75). -/
def houseLetter : HouseCode → String
  | .A => "A"
  | .B => "B"
  | .C => "C"
  | .D => "D"
  | .E => "E"
  | .F => "F"
  | .G => "G"
  | .H => "H"
  | .I => "I"
  | .J => "J"
  | .K => "K"
  | .L => "L"
  | .M => "M"
  | .N => "N"
  | .O => "O"
  | .P => "P"

/-- The mnemonic of a command (30_encoding R75). -/
def mnemonicText : Command → String
  | .on => "ON"
  | .off => "OFF"
  | .bright => "BRIGHT"
  | .dim => "DIM"
  | .allOff => "ALL_OFF"
  | .allOn => "ALL_ON"
  | .lampsOff => "LAMPS_OFF"
  | .lampsOn => "LAMPS_ON"

/-- The source's constant for a house (30_encoding R74). The spec infers all but three of them from the naming pattern. -/
def sourceHouseName (h : HouseCode) : String := "hc" ++ houseLetter h

/-- The source's constant for a command (30_encoding R74). The spec infers all but three of them from the naming pattern. -/
def sourceCommandName : Command → String
  | .on => "cmdOn"
  | .off => "cmdOff"
  | .bright => "cmdBright"
  | .dim => "cmdDim"
  | .allOff => "cmdAllOff"
  | .allOn => "cmdAllOn"
  | .lampsOff => "cmdLampsOff"
  | .lampsOn => "cmdLampsOn"

/-- A line as text (30_encoding R75); an omitted device is not written (R76). -/
def lineText : AsmLine → String
  | .init rts dtr delayUs =>
    "INIT rts=" ++ toString rts ++ ", dtr=" ++ toString dtr ++ ", delay_us=" ++ toString delayUs
  | .send house (some device) mnemonic =>
    "SEND " ++ houseLetter house ++ ", " ++ toString device ++ ", " ++ mnemonicText mnemonic
  | .send house none mnemonic => "SEND " ++ houseLetter house ++ ", " ++ mnemonicText mnemonic

/-! ## Reading a line -/

/-- The number that decimal digits stand for after `acc`; none if a character is no digit. -/
def digitsFrom (acc : Nat) : List Char → Option Nat
  | [] => some acc
  | c :: cs => if c.isDigit then digitsFrom (10 * acc + (c.toNat - '0'.toNat)) cs else none

/-- A decimal number of at least one digit. -/
def readNumber : List Char → Option Nat
  | [] => none
  | c :: cs => digitsFrom 0 (c :: cs)

/-- What follows a given beginning of a text; none if the text begins otherwise. -/
def afterPrefix : List Char → List Char → Option (List Char)
  | [], text => some text
  | _ :: _, [] => none
  | p :: ps, c :: cs => if p = c then afterPrefix ps cs else none

/-- A text without the spaces around it. -/
def trimSpaces (text : List Char) : List Char :=
  ((text.dropWhile (· = ' ')).reverse.dropWhile (· = ' ')).reverse

/-- The parts of a text between its commas. -/
def splitAtCommas : List Char → List (List Char)
  | [] => [[]]
  | c :: cs =>
    if c = ',' then [] :: splitAtCommas cs
    else match splitAtCommas cs with
      | [] => [[c]]
      | part :: parts => (c :: part) :: parts

/-- A house by its letter (30_encoding R75) or the source's name (R74). -/
def readHouse (text : List Char) : Option HouseCode :=
  [HouseCode.A, .B, .C, .D, .E, .F, .G, .H, .I, .J, .K, .L, .M, .N, .O, .P].find? fun h =>
    (houseLetter h).toList = text ∨ (sourceHouseName h).toList = text

/-- A command by its mnemonic (30_encoding R75) or the source's name (R74). -/
def readCommand (text : List Char) : Option Command :=
  [Command.on, .off, .bright, .dim, .allOff, .allOn, .lampsOff, .lampsOn].find? fun c =>
    (mnemonicText c).toList = text ∨ (sourceCommandName c).toList = text

/-- A number after a name and `=`. -/
def readField (name : String) (text : List Char) : Option Nat :=
  (afterPrefix name.toList text).bind readNumber

/-- A line of text (30_encoding R75, R76); none if it has neither form. Spaces around a part do not matter (log 19). -/
def readLine (text : String) : Option AsmLine :=
  let text := trimSpaces text.toList
  match afterPrefix "INIT ".toList text, afterPrefix "SEND ".toList text with
  | some rest, _ =>
    match (splitAtCommas rest).map trimSpaces with
    | [rts, dtr, delay] => do
      .some (.init (← readField "rts=" rts) (← readField "dtr=" dtr) (← readField "delay_us=" delay))
    | _ => none
  | none, some rest =>
    match (splitAtCommas rest).map trimSpaces with
    | [house, device, mnemonic] => do
      .some (.send (← readHouse house) (some (← readNumber device)) (← readCommand mnemonic))
    | [house, mnemonic] => do
      .some (.send (← readHouse house) none (← readCommand mnemonic))
    | _ => none
  | none, none => none

/-! ## Assembling -/

/-- The broadcast commands (00_scope R12). -/
def isBroadcast : Command → Bool
  | .on => false
  | .off => false
  | .bright => false
  | .dim => false
  | .allOff => true
  | .allOn => true
  | .lampsOff => true
  | .lampsOn => true

/-- The instruction of a line. A broadcast command without a device is sent with device number 1 (30_encoding R76). -/
def assemble : AsmLine → Except AsmError Instr
  | .init rts dtr delayUs =>
    if rts ≤ 255 ∧ dtr ≤ 255 ∧ delayUs ≤ 1048575 then
      .ok (.init (BitVec.ofNat 8 rts) (BitVec.ofNat 8 dtr) (BitVec.ofNat 20 delayUs))
    else .error .outOfRange
  | .send house (some device) mnemonic =>
    if device ≤ 31 then .ok (sendInstr mnemonic (houseIndex house) (BitVec.ofNat 5 device))
    else .error .outOfRange
  | .send house none mnemonic =>
    if isBroadcast mnemonic then .ok (sendInstr mnemonic (houseIndex house) 1#5)
    else .error .deviceMissing

/-- The offer of an instruction on its channel. -/
def hostLine (i : Instr) : HostLine :=
  match encode i with
  | .cmd c => .sendOnly c
  | .init w => .initOnly w

/-- A program: its lines, offered one after another (30_encoding R75). -/
def assembleProgram : List AsmLine → Except AsmError (List HostLine)
  | [] => .ok []
  | l :: ls =>
    match assemble l with
    | .error e => .error e
    | .ok i =>
      match assembleProgram ls with
      | .error e => .error e
      | .ok p => .ok (hostLine i :: p)

/-- `delay_us = bitDelayMs × 1000` for a `bitDelayMs` given as a fraction; none where it is not a whole number of µs or
exceeds 1048.575 ms, and so "must not be offered" (42_command_surface R128). -/
def delayOfMs (num den : Nat) : Option Delay :=
  if den ≠ 0 ∧ num * 1000 % den = 0 ∧ num * 1000 / den ≤ 1048575 then
    some (BitVec.ofNat 20 (num * 1000 / den))
  else none

end Sys2Proof.Machine
end

