-- ==== Sys2Proof/Machine/Clock.lean ====
section
/-! DEFINITION. The clock-level realisation (41_transmitter R118 to R120): one step per rising edge of `clk`, over the same
state and the same end-of-dwell actions as the phase level. `CLK_HZ` is an argument (00_scope R8; log 23). -/

namespace Sys2Proof.Machine

/-- `DIV = CLK_HZ / 1 000 000` (41_transmitter R118). -/
def clockDiv (clkHz : Nat) : Nat := clkHz / 1000000

/-- A tick of 1 µs while busy (41_transmitter R119): the dwell counter goes down, and its last tick ends the phase. -/
def tick (s : State) : Host.Outcome State Fault Refusal :=
  let t := { s with presc := 0, now := s.now + 1 }
  if 1 < s.dwell.toNat then .next { t with dwell := s.dwell - 1#20 } else endOfDwell t

/-- One clock edge (41_transmitter R118): `rst` first; in IDLE the prescaler is held at 0 and an offer is accepted; while
busy the prescaler counts and a tick comes when it reaches `DIV - 1`. -/
def clockStep (clkHz : Nat) (s : State) : Host.Outcome State Fault Refusal :=
  if rstAsserted s then .next (hardwareReset (beginStep s))
  else if s.phase = .idle then acceptOffer { beginStep s with presc := 0 }
  else if s.presc = clockDiv clkHz - 1 then tick (beginStep s)
  else .next { beginStep s with presc := s.presc + 1 }

/-- `n` clock edges, stopping at the first fault or refusal. -/
def clockRun (clkHz : Nat) : Nat → State → Host.Outcome State Fault Refusal
  | 0, s => .next s
  | n + 1, s =>
    match clockStep clkHz s with
    | .next t => clockRun clkHz n t
    | .fault r => .fault r
    | .refused r => .refused r

end Sys2Proof.Machine
end

