-- ==== Sys2Proof/Safety.lean ====
section
/-! DEFINITION. The terms claims about X10FC are stated in: the invariants, what a run's inputs may be assumed to be, and
the states a transmission goes through, each written from the rule it cites and not from the model's operations. -/

namespace Sys2Proof.Machine

/-! ## Invariants -/

/-- What holds of every state between two phase-level steps. -/
structure Inv (s : State) : Prop where
  /-- "`bit_idx` never exceeds 39" (10_state R17) -/
  bitIdx_le : s.bitIdx.toNat ≤ 39
  /-- the dwell counter holds the whole dwell of the phase, 0 in IDLE (10_state R22, 60_exceptions R157) -/
  dwell_eq : s.dwell = phaseDuration s.phase s.config.bitDelay
  /-- the prescaler is at rest at a phase boundary (41_transmitter R118) -/
  presc_zero : s.presc = 0
  /-- a transmission runs only after an INIT (10_state R24) -/
  busy_initialized : s.phase ≠ .idle → s.initialized = true
  /-- no stored configuration violates the minimum (70_reset_and_hazards R174), and the lines are driven (10_state R20) -/
  initialized_config : s.initialized = true → 500 ≤ s.config.bitDelay.toNat ∧ s.lineOe = true
  /-- before INIT the registers INIT writes have their reset values (10_state R38) -/
  uninitialized : s.initialized = false →
    s.lineOe = false ∧ s.config = ⟨0#8, 0#8, 0#20⟩ ∧ s.rts = false ∧ s.dtr = false
  /-- each phase holds its line state (10_state R18) -/
  held_lines : ∀ ls, heldLine s = some ls → s.lines = ls
  /-- the message being sent has its header and footer (40_encoder R92) -/
  busy_framed : s.phase ≠ .idle → msgFramed s.msg = true
  /-- while busy the wires are known: every write of the transmission so far succeeded (41_transmitter R110) -/
  busy_wires : s.phase ≠ .idle → s.wireKnown = true
  /-- the response pulse carries the result in `err` (10_state R34) -/
  rsp_err : ∀ e, s.rsp = some e → s.err = e

/-- What holds of every state between two clock edges at `CLK_HZ` = `clkHz`. -/
structure ClockInv (clkHz : Nat) (s : State) : Prop where
  /-- `presc` counts 0..DIV - 1 (41_transmitter R118) -/
  presc_lt : s.presc < clockDiv clkHz
  /-- a running phase has at least one µs left, and at most its duration (41_transmitter R119) -/
  dwell_range : s.phase ≠ .idle →
    1 ≤ s.dwell.toNat ∧ s.dwell.toNat ≤ (phaseDuration s.phase s.config.bitDelay).toNat
  /-- `bit_idx` never exceeds 39 (10_state R17) -/
  bitIdx_le : s.bitIdx.toNat ≤ 39
  /-- every stored bit delay is legal (70_reset_and_hazards R174) -/
  initialized_config : s.initialized = true → 500 ≤ s.config.bitDelay.toNat
  /-- a transmission runs only after an INIT (10_state R24) -/
  busy_initialized : s.phase ≠ .idle → s.initialized = true

/-! ## The inputs of a run -/

/-- `rst` is 0 in the next `n` steps. -/
def noReset (n : Nat) (s : State) : Prop := ∀ j, j < n → s.rstInputs.getD j false = false

/-- The next `n` line writes succeed. -/
def noLineFault (n : Nat) (s : State) : Prop := ∀ j, j < n → s.lineFaults.getD j false = false

/-- The next `k` line writes succeed and the one after them fails. -/
def lineFaultAfter (k : Nat) (s : State) : Prop := noLineFault k s ∧ s.lineFaults.getD k false = true

/-- How many operations a line of the host's program offers. -/
def lineOperations : HostLine → Nat
  | .initOnly _ => 1
  | .sendOnly _ => 1
  | .both _ _ => 2

/-- The operations of a run that still have to complete: those waiting on the channels, those of the program, and the one in
progress (42_command_surface R131, R136). -/
def operationsLeft (s : State) : Nat :=
  s.initPort.toList.length + s.cmdPort.toList.length + (s.program.map lineOperations).sum
    + (if s.phase = .idle then 0 else 1)

/-- The run that began in `start` and has come to `s` is over: every operation of it has produced its completion pulse, and
the sequencer is in IDLE (70_reset_and_hazards R187). An operation that `rst` ended never produces its pulse (R169), so a
run that lost one is never over. -/
def runOver (start s : State) : Prop :=
  s.responses.length = start.responses.length + operationsLeft start ∧ s.phase = .idle

/-- No completion pulse of the run so far carried an error (60_exceptions R153). -/
def errorFree (s : State) : Prop := ∀ r ∈ s.responses, r.code = .errNone

/-! ## Acceptance -/

/-- The step from `s` accepts the INIT with these operands: `rst` is 0, the sequencer is in IDLE, the word is on the INIT
channel, and the step is the INIT with its offer withdrawn (10_state R32, 70_reset_and_hazards R167). -/
def acceptsInit (s : State) (p q : Pin) (d : Delay) : Prop :=
  rstAsserted s = false ∧ s.phase = .idle ∧ (loadPorts s).initPort = some (initWord p q d)
    ∧ step s = exec (.init p q d) { beginStep s with initPort := none }

/-- The step from `s` accepts the SEND with these operands: `rst` is 0, the sequencer is in IDLE, no INIT is offered, the
word is on the CMD channel, and the step is the SEND with its offer withdrawn (10_state R33, 70_reset_and_hazards R167). -/
def acceptsSend (s : State) (c : Command) (house : BitVec 4) (device : BitVec 5) : Prop :=
  rstAsserted s = false ∧ s.phase = .idle ∧ (loadPorts s).initPort = none
    ∧ (loadPorts s).cmdPort = some (cmdWord c house device)
    ∧ step s = exec (sendInstr c house device) { beginStep s with cmdPort := none }

/-! ## The states and observations the rules describe -/

/-- The message around `data`, as one number (30_encoding R65: `0xD5AA0000AD | (data << 8)`). -/
def messageOf (data : Pattern) : Message :=
  0xD5AA0000AD#40 ||| (data.setWidth 40 <<< 8)

/-- The state an error-free SEND of message `m` leaves when it has been accepted in `s` and its Reset write succeeded
(42_command_surface R129, 41_transmitter R101). -/
def sendStarted (m : Message) (s : State) : State :=
  { s with
    msg := m
    phase := .reset
    dwell := s.config.bitDelay
    rts := false
    dtr := false
    trace := s.trace ++ [.wrote .reset]
    lineFaults := s.lineFaults.tail
    wireKnown := true }

/-- The state an operation leaves that completes at once in `s` with error `e` and no other effect (60_exceptions R150,
R151). -/
def erredAtOnce (e : ErrCode) (s : State) : State :=
  { s with
    err := e
    rsp := some e
    responses := s.responses ++ [⟨s.now, e⟩]
    phase := .idle
    dwell := 0#20 }

/-- The line state written at the end of a phase's dwell; none where nothing is written (41_transmitter R101 to R105). -/
def nextWrite (s : State) : Option LineState :=
  match s.phase with
  | .idle => none
  | .reset => some .standby
  | .settle => some (dataSymbol s.msg 0)
  | .data => some .standby
  | .gap => if s.bitIdx.toNat < 39 then some (dataSymbol s.msg (s.bitIdx.toNat + 1)) else none
  | .quiet => none

/-- `bit_idx` after the assignment that stands before that write (41_transmitter R110). -/
def nextBitIdx (s : State) : BitVec 6 :=
  match s.phase with
  | .idle => s.bitIdx
  | .reset => s.bitIdx
  | .settle => 0#6
  | .data => s.bitIdx
  | .gap => if s.bitIdx.toNat < 39 then s.bitIdx + 1#6 else s.bitIdx
  | .quiet => s.bitIdx

/-- The phase a transmission is in after `j` of its phases have ended, `j` = 0..83 (41_transmitter R107). -/
def phaseAfter (j : Nat) : Phase :=
  if j = 0 then .reset
  else if j = 1 then .settle
  else if j ≤ 81 then (if j % 2 = 0 then .data else .gap)
  else if j = 82 then .quiet
  else .idle

/-- `bit_idx` after `j` phases of a transmission, where it began as `b` (41_transmitter R102, R104, 90_conflicts C7). -/
def bitIdxAfter (b : Nat) (j : Nat) : Nat :=
  if j ≤ 1 then b else if j ≤ 81 then (j - 2) / 2 else 39

/-- How many of a trace's events are line-state writes (41_transmitter R108). -/
def writesIn (es : List Event) : Nat :=
  (es.filter fun e => match e with
    | .wrote _ => true
    | .failed _ => false
    | .held _ => false).length

/-- The sum of a trace's holds in µs (41_transmitter R114). -/
def heldTime (es : List Event) : Nat :=
  (es.map fun e => match e with
    | .wrote _ => 0
    | .failed _ => 0
    | .held t => t).sum

end Sys2Proof.Machine
end

