-- ==== Sys2Proof/Certificates/Slice0/Obligations.lean ====
section
/-! DEFINITION. The statements about X10FC. Each docstring names the rules it formalises; `derived` in a docstring says that
the statement rests on a decision or an inference the spec marks as its own, or on a choice of this model. -/

open Sys2Proof Sys2Proof.Machine

/-! ## Encodings -/

/-- Decoding the word of an instruction gives it back, with every operand at every value, on the channel and as bytes
(30_encoding R60, R64, R72; the byte order is the model's choice, log 16). -/
def Obligations.DecodeOfEncodeIsTheInstruction : Prop :=
  ∀ i : Instr, decode (encode i) = i ∧ decodeBytes (encodeBytes i) = .ok i

/-- Every word of a channel has one meaning: encoding what it decodes to gives the word back (30_encoding R72). -/
def Obligations.EncodeOfDecodeIsTheWord : Prop :=
  ∀ w : PortWord, encode (decode w) = w

/-- The words of 95_test_vectors E1 to E3, E10 to E14, X2 and I1 decode to the operations they are given for. -/
def Obligations.SpecWordsDecode : Prop :=
  decodeCmd 0x008#12 = .on 0#4 1#5
  ∧ decodeCmd 0xF81#12 = .off 15#4 16#5
  ∧ decodeCmd 0xC0A#12 = .bright 12#4 1#5
  ∧ decodeCmd 0x03B#12 = .dim 0#4 7#5
  ∧ decodeCmd 0x00C#12 = .allOff 0#4 1#5
  ∧ decodeCmd 0xF85#12 = .allOn 15#4 16#5
  ∧ decodeCmd 0xC4E#12 = .lampsOff 12#4 9#5
  ∧ decodeCmd 0x917#12 = .lampsOn 9#4 2#5
  ∧ decodeCmd 0x088#12 = .on 0#4 17#5
  ∧ decodeInit 0x0704003E8#36 = .init 7#8 4#8 1000#20

/-- R98: bit-cell `i` carries `m[39 - i]`, which is bit `7 - (i mod 8)` of byte `i div 8`, byte 0 being `m[39:32]`. -/
def Obligations.BitCellCarriesMsbFirstBit : Prop :=
  ∀ (m : Message) (i : Nat), i < 40 →
    bitOf m i = m.getLsbD (39 - i)
    ∧ bitOf m i = (msgByte m (i / 8)).getLsbD (7 - i % 8)
    ∧ msgByte m 0 = m.extractLsb' 32 8

/-- R99: `StateOfBit(1)` is Logical-1, RTS HIGH and DTR LOW; `StateOfBit(0)` is Logical-0, RTS LOW and DTR HIGH. -/
def Obligations.StateOfBitIsTheDataSymbol : Prop :=
  stateOfBit true = .logical1 ∧ lineRts .logical1 = true ∧ lineDtr .logical1 = false
    ∧ lineCode .logical1 = 0b10#2
  ∧ stateOfBit false = .logical0 ∧ lineRts .logical0 = false ∧ lineDtr .logical0 = true
    ∧ lineCode .logical0 = 0b01#2

/-- The fields of STATUS, from bit 12 down to bit 0 (10_state R30), with the codes of the six phases (10_state R18) and of
the four results in `err` (60_exceptions R145). -/
def Obligations.StatusShowsItsFields : Prop :=
  ∀ s : State,
    s.status.getLsbD 12 = s.initialized
    ∧ s.status.getLsbD 11 = decide (s.phase ≠ .idle)
    ∧ s.status.extractLsb' 9 2 = errBits s.err
    ∧ s.status.extractLsb' 6 3 = phaseCode s.phase
    ∧ s.status.extractLsb' 0 6 = s.bitIdx
    ∧ phaseCode .idle = 0#3 ∧ phaseCode .reset = 1#3 ∧ phaseCode .settle = 2#3
    ∧ phaseCode .data = 3#3 ∧ phaseCode .gap = 4#3 ∧ phaseCode .quiet = 5#3
    ∧ errBits .errNone = 0#2 ∧ errBits .errInvalidArgument = 1#2
    ∧ errBits .errNotInitialized = 2#2 ∧ errBits .errLineWrite = 3#2

/-! ## The Encoder -/

/-- R79: `Encode` over any tables. Invalid operands raise InvalidArgument (none); valid ones give the five bytes around the
OR of the house pattern, for On and Off the device pattern at index device - 1, and the command pattern. -/
def Obligations.EncodeComposesTheMessage : Prop :=
  ∀ t : Tables,
    (∀ house device command : Nat, (15 < house ∨ device = 0 ∨ 16 < device ∨ 7 < command) →
      encodeMessage t house device command = none)
    ∧ ∀ (h d : Fin 16) (c : Fin 8),
        encodeMessage t h.val (d.val + 1) c.val =
          (let data : Pattern :=
            t.house[h] ||| (if c.val = 0 ∨ c.val = 1 then t.device[d] else 0x0000#16) ||| t.cmd[c]
          some (0xD5#8 ++ 0xAA#8 ++ data.extractLsb' 8 8 ++ data.extractLsb' 0 8 ++ 0xAD#8))

/-- R92: every valid combination gives a message, whose first two bytes are D5 and AA and whose last is AD. -/
def Obligations.EveryMessageIsFramed : Prop :=
  ∀ (t : Tables) (house device command : Nat),
    house ≤ 15 → 1 ≤ device → device ≤ 16 → command ≤ 7 →
    ∃ m, encodeMessage t house device command = some m
      ∧ m.extractLsb' 32 8 = 0xD5#8 ∧ m.extractLsb' 24 8 = 0xAA#8 ∧ m.extractLsb' 0 8 = 0xAD#8

/-- R93: the data bytes of On and Off are the OR of three patterns; those of the other six commands the OR of two, and
varying the device does not change the message. -/
def Obligations.DataBytesOfEachCommand : Prop :=
  ∀ (t : Tables) (h d d' : Fin 16) (c : Fin 8),
    (c.val ≤ 1 → ∃ m, encodeMessage t h.val (d.val + 1) c.val = some m
      ∧ m.extractLsb' 8 16 = t.house[h] ||| t.device[d] ||| t.cmd[c])
    ∧ (2 ≤ c.val → (∃ m, encodeMessage t h.val (d.val + 1) c.val = some m
        ∧ m.extractLsb' 8 16 = t.house[h] ||| t.cmd[c])
      ∧ encodeMessage t h.val (d.val + 1) c.val = encodeMessage t h.val (d'.val + 1) c.val)

/-- The table reads of one SEND (40_encoder R95, derived there): three for a valid On or Off, two for the other valid
commands, none for invalid operands. -/
def Obligations.TableReadsOfOneSend : Prop :=
  (∀ house device command : Nat, (15 < house ∨ device = 0 ∨ 16 < device ∨ 7 < command) →
    tableReads house device command = [])
  ∧ ∀ (h d : Fin 16) (c : Fin 8),
      tableReads h.val (d.val + 1) c.val =
        if c.val ≤ 1 then [.house h, .device d, .cmd c] else [.house h, .cmd c]

/-- The tables of this machine obey 20_memory R45, and lie within the masks R45 gives for the defaults (GK entries: log 4,
derived). -/
def Obligations.DefaultTablesAreLawful : Prop :=
  Tables.sourceEntries lut = true ∧ Tables.lossless lut = true
  ∧ (∀ h : Fin 16, lut.house[h] &&& ~~~0xF000#16 = 0#16)
  ∧ (∀ d : Fin 16, lut.device[d] &&& ~~~0x0458#16 = 0#16)
  ∧ lut.cmd[0] = 0x0000#16 ∧ lut.cmd[1] = 0x0020#16
  ∧ (∀ c : Fin 8, lut.cmd[c] &&& ~~~0x00FF#16 = 0#16)

/-- Over any lawful tables the OR of one message is the sum of its patterns (40_encoder R83, derived there). -/
def Obligations.OrOfLawfulPatternsIsTheirSum : Prop :=
  ∀ (t : Tables) (h d : Fin 16) (c : Fin 8), Tables.lawful t = true →
    (composeData t (tableReads h.val (d.val + 1) c.val)).toNat
      = t.house[h].toNat + (if c.val ≤ 1 then t.device[d].toNat else 0) + t.cmd[c].toNat

/-- With the default tables two valid commands give the same message only if house and command agree, and for On and Off
the device too (40_encoder R96, derived there; GK entries: log 4). -/
def Obligations.DefaultMessagesAreDistinct : Prop :=
  ∀ (h h' d d' : Fin 16) (c c' : Fin 8),
    encodeMessage lut h.val (d.val + 1) c.val = encodeMessage lut h'.val (d'.val + 1) c'.val →
    h = h' ∧ c = c' ∧ (c.val ≤ 1 → d = d')

/-! ## The operations: what each does when it is accepted -/

/-- ON accepted in IDLE after an INIT, its Reset write succeeding: the message of house and device is stored, RESET is
entered with the lines LOW, LOW; nothing else changes (R84, R129, R101; table entries: log 4). -/
def Obligations.OnStartsItsTransmission : Prop :=
  ∀ (house : BitVec 4) (device : BitVec 5) (s : State),
    s.phase = .idle → s.initialized = true → 1 ≤ device.toNat → device.toNat ≤ 16 → noLineFault 1 s →
    exec (.on house device) s =
      .next (sendStarted (messageOf (houseLut.toList.getD house.toNat 0#16
        ||| deviceLut.toList.getD (device.toNat - 1) 0#16)) s)

/-- OFF likewise, with the command pattern 0x0020 (R85, R129, R101; table entries: log 4). -/
def Obligations.OffStartsItsTransmission : Prop :=
  ∀ (house : BitVec 4) (device : BitVec 5) (s : State),
    s.phase = .idle → s.initialized = true → 1 ≤ device.toNat → device.toNat ≤ 16 → noLineFault 1 s →
    exec (.off house device) s =
      .next (sendStarted (messageOf (houseLut.toList.getD house.toNat 0#16
        ||| deviceLut.toList.getD (device.toNat - 1) 0#16 ||| 0x0020#16)) s)

/-- BRIGHT, DIM, ALL_OFF, ALL_ON, LAMPS_OFF and LAMPS_ON likewise: the device is validated and otherwise ignored
(R86 to R91, R129, R101; the command patterns but Bright's are GK entries: log 4). -/
def Obligations.HouseCommandsStartTheirTransmission : Prop :=
  ∀ (house : BitVec 4) (device : BitVec 5) (s : State),
    s.phase = .idle → s.initialized = true → 1 ≤ device.toNat → device.toNat ≤ 16 → noLineFault 1 s →
    let started : Pattern → Host.Outcome State Fault Refusal := fun c =>
      .next (sendStarted (messageOf (houseLut.toList.getD house.toNat 0#16 ||| c)) s)
    exec (.bright house device) s = started 0x0088#16
    ∧ exec (.dim house device) s = started 0x0098#16
    ∧ exec (.allOff house device) s = started 0x0080#16
    ∧ exec (.allOn house device) s = started 0x0091#16
    ∧ exec (.lampsOff house device) s = started 0x0084#16
    ∧ exec (.lampsOn house device) s = started 0x0094#16

/-- A SEND whose Reset write fails: LineWriteError in the accepting step, with the command's message stored and RESET not
entered (41_transmitter R101, R110, 60_exceptions R144, R150, R152; 95_test_vectors T5 with k = 1). The wires are open from
then on (U3: log 9). -/
def Obligations.FailedResetWriteAbortsTheSend : Prop :=
  ∀ (c : Command) (house : BitVec 4) (device : BitVec 5) (s : State),
    s.phase = .idle → s.initialized = true → 1 ≤ device.toNat → device.toNat ≤ 16 → lineFaultAfter 0 s →
    ∃ m, encodeMessage lut house.toNat device.toNat (commandIndex c) = some m
      ∧ exec (sendInstr c house device) s = .next (erredAtOnce .errLineWrite
        { s with
          msg := m
          rts := false
          dtr := false
          trace := s.trace ++ [.failed .reset]
          lineFaults := s.lineFaults.tail
          wireKnown := false
          wireDraws := s.wireDraws + 1 })

/-- R142, R147: any SEND with device 0 or above 16, initialised or not, raises InvalidArgument; only `err`, the response
pulse and the record of responses change (a state in IDLE whose dwell is not 0 is reached by no run). -/
def Obligations.IllegalDeviceRaisesInvalidArgument : Prop :=
  ∀ (house : BitVec 4) (device : BitVec 5) (s : State),
    s.phase = .idle → (device.toNat = 0 ∨ 16 < device.toNat) →
    ∀ i ∈ [Instr.on house device, .off house device, .bright house device, .dim house device,
        .allOff house device, .allOn house device, .lampsOff house device, .lampsOn house device],
      exec i s = .next (erredAtOnce .errInvalidArgument s)

/-- R143: a valid SEND before any INIT raises NotInitialized; no line write, MSG not written, the sequencer stays in IDLE. -/
def Obligations.SendBeforeInitRaisesNotInitialized : Prop :=
  ∀ (house : BitVec 4) (device : BitVec 5) (s : State),
    s.phase = .idle → s.initialized = false → 1 ≤ device.toNat → device.toNat ≤ 16 →
    ∀ i ∈ [Instr.on house device, .off house device, .bright house device, .dim house device,
        .allOff house device, .allOn house device, .lampsOff house device, .lampsOn house device],
      exec i s = .next (erredAtOnce .errNotInitialized s)

/-- R124, R127: INIT with a legal delay stores LineConfig, sets `initialized` and `line_oe`, completes with ERR_NONE and
writes no line-state event. The first one since reset, with `line_oe` 0, puts LOW, LOW into the registers and leaves the
wires open (U2: logs 8, 9); a later one leaves the lines alone (log 12). -/
def Obligations.InitConfiguresAndCompletes : Prop :=
  ∀ (p q : Pin) (t : Delay) (s : State), s.phase = .idle → 500 ≤ t.toNat →
    exec (.init p q t) s = .next
      { s with
        config := ⟨p, q, t⟩
        initialized := true
        lineOe := true
        rts := if s.lineOe then s.rts else false
        dtr := if s.lineOe then s.dtr else false
        wireKnown := if s.lineOe then s.wireKnown else false
        wireDraws := if s.lineOe then s.wireDraws else s.wireDraws + 1
        err := .errNone
        rsp := some .errNone
        responses := s.responses ++ [⟨s.now, .errNone⟩] }

/-- R125: INIT with a delay below 500 µs raises InvalidArgument, and no other state changes. 500 µs and the largest delay,
1 048 575 µs, are accepted, by a further INIT too, which the spec decides and U5 leaves open (log 12). -/
def Obligations.ShortDelayInitRaisesInvalidArgument : Prop :=
  (∀ (p q : Pin) (t : Delay) (s : State), Inv s → s.phase = .idle → t.toNat < 500 →
    exec (.init p q t) s = .next
      { s with
        err := .errInvalidArgument
        rsp := some .errInvalidArgument
        responses := s.responses ++ [⟨s.now, .errInvalidArgument⟩] })
  ∧ ∀ (p q : Pin) (t : Delay) (s : State), s.phase = .idle → (t = 500#20 ∨ t = 1048575#20) →
      ∃ u, exec (.init p q t) s = .next u ∧ u.rsp = some .errNone ∧ u.config = ⟨p, q, t⟩

/-- R71, R72: in IDLE an operation completes with InvalidArgument exactly if it is ill-formed. -/
def Obligations.InvalidArgumentExactlyForIllFormed : Prop :=
  ∀ (i : Instr) (s : State), s.phase = .idle → s.rsp = none →
    ∃ t, exec i s = .next t ∧ (t.rsp = some .errInvalidArgument ↔ WellFormed i = false)

/-- R126, R131: an operation offered while busy is not accepted and has no effect. -/
def Obligations.BusyMachineAcceptsNothing : Prop :=
  ∀ (i : Instr) (s : State), s.phase ≠ .idle → exec i s = .next s

/-- R151: after InvalidArgument or NotInitialized of a SEND the state is that before it but for `err` (and the pulse with
its record), and X10FC is ready as before. -/
def Obligations.RefusedSendChangesOnlyErr : Prop :=
  ∀ (c : Command) (house : BitVec 4) (device : BitVec 5) (s : State), Inv s → s.phase = .idle →
    (s.initialized = false ∨ device.toNat = 0 ∨ 16 < device.toNat) →
    ∃ e t, (e = .errInvalidArgument ∨ e = .errNotInitialized) ∧ exec (sendInstr c house device) s = .next t
      ∧ t = { s with err := e, rsp := some e, responses := s.responses ++ [⟨s.now, e⟩] }
      ∧ t.initReady = s.initReady ∧ t.cmdReady = s.cmdReady

/-! ## The sequencer: what the end of each dwell does -/

/-- R101: StartTransmit writes Reset whatever the lines were and enters RESET with BIT_DELAY; RESET holds Reset; at the end
of its dwell Standby is written and SETTLE entered with 35 000 µs. -/
def Obligations.ResetPhaseLeadsToSettle : Prop :=
  (∀ s : State, noLineFault 1 s → startTransmit s = sendStarted s.msg s)
  ∧ ∀ s : State, Inv s → s.phase = .reset → noLineFault 1 s →
      s.lines = .reset ∧ s.dwell = s.config.bitDelay
      ∧ endOfDwell s = .next
          { s with
            rts := true, dtr := true, phase := .settle, dwell := 35000#20
            trace := s.trace ++ [.held s.config.bitDelay.toNat, .wrote .standby]
            lineFaults := s.lineFaults.tail, wireKnown := true }

/-- R102: SETTLE holds Standby for 35 000 µs whatever BIT_DELAY is; at its end `bit_idx` becomes 0, the symbol of bit 0 is
written, which is Logical-1 for an encoded message, and DATA is entered. -/
def Obligations.SettlePhaseLeadsToFirstBit : Prop :=
  ∀ s : State, Inv s → s.phase = .settle → noLineFault 1 s →
    s.lines = .standby ∧ s.dwell = 35000#20
    ∧ stateOfBit (bitOf s.msg 0) = .logical1
    ∧ endOfDwell s = .next
        { s with
          rts := true, dtr := false, bitIdx := 0#6, phase := .data, dwell := s.config.bitDelay
          trace := s.trace ++ [.held 35000, .wrote .logical1]
          lineFaults := s.lineFaults.tail, wireKnown := true }

/-- R103: DATA holds the symbol of bit `bit_idx` for BIT_DELAY; at its end Standby is written and GAP entered; `bit_idx` is
unchanged. -/
def Obligations.DataPhaseLeadsToGap : Prop :=
  ∀ s : State, Inv s → s.phase = .data → noLineFault 1 s →
    s.lines = stateOfBit (bitOf s.msg s.bitIdx.toNat) ∧ s.dwell = s.config.bitDelay
    ∧ endOfDwell s = .next
        { s with
          rts := true, dtr := true, phase := .gap, dwell := s.config.bitDelay
          trace := s.trace ++ [.held s.config.bitDelay.toNat, .wrote .standby]
          lineFaults := s.lineFaults.tail, wireKnown := true }

/-- R104: GAP holds Standby for BIT_DELAY; at its end, below bit 39 the next bit's symbol is written and DATA entered, and
after bit 39 QUIET is entered with 1 000 000 µs and no line write. -/
def Obligations.GapPhaseLeadsToNextBitOrQuiet : Prop :=
  ∀ s : State, Inv s → s.phase = .gap →
    s.lines = .standby ∧ s.dwell = s.config.bitDelay
    ∧ (s.bitIdx.toNat < 39 → noLineFault 1 s →
        let next := stateOfBit (bitOf s.msg (s.bitIdx.toNat + 1))
        endOfDwell s = .next
          { s with
            rts := lineRts next, dtr := lineDtr next, bitIdx := s.bitIdx + 1#6
            phase := .data, dwell := s.config.bitDelay
            trace := s.trace ++ [.held s.config.bitDelay.toNat, .wrote next]
            lineFaults := s.lineFaults.tail, wireKnown := true })
    ∧ (s.bitIdx.toNat = 39 →
        endOfDwell s = .next
          { s with
            phase := .quiet, dwell := 1000000#20
            trace := s.trace ++ [.held s.config.bitDelay.toNat] })

/-- R105: QUIET holds Standby for 1 000 000 µs whatever BIT_DELAY is; at its end the sequencer is in IDLE and the SEND
completes with ERR_NONE; `busy` falls and `init_ready` rises, and `cmd_ready` unless an INIT is offered. -/
def Obligations.QuietPhaseCompletesTheSend : Prop :=
  ∀ s : State, Inv s → s.phase = .quiet →
    s.lines = .standby ∧ s.dwell = 1000000#20
    ∧ ∃ t, endOfDwell s = .next t
      ∧ t = { s with
          phase := .idle, dwell := 0#20, trace := s.trace ++ [.held 1000000]
          err := .errNone, rsp := some .errNone, responses := s.responses ++ [⟨s.now, .errNone⟩] }
      ∧ (s.busy ∧ s.initReady = false ∧ s.cmdReady = false)
      ∧ (¬ t.busy ∧ t.initReady = true ∧ t.cmdReady = s.initPort.isNone)

/-- R110: a failed line write at the end of any dwell aborts the transmission in that step: the attempted state stays in
`rts` and `dtr`, `bit_idx` has taken its assignment, nothing further is written, and the operation completes with
ERR_LINE_WRITE. The wires are open from then on (U3: log 9). -/
def Obligations.FailedLineWriteAbortsTheTransmission : Prop :=
  ∀ (s : State) (ls : LineState), s.bitIdx.toNat ≤ 39 → nextWrite s = some ls → lineFaultAfter 0 s →
    endOfDwell s = .next
      { s with
        rts := lineRts ls, dtr := lineDtr ls, bitIdx := nextBitIdx s
        phase := .idle, dwell := 0#20
        err := .errLineWrite, rsp := some .errLineWrite
        responses := s.responses ++ [⟨s.now, .errLineWrite⟩]
        trace := s.trace ++ [.held (phaseDuration s.phase s.config.bitDelay).toNat, .failed ls]
        lineFaults := s.lineFaults.tail, wireKnown := false, wireDraws := s.wireDraws + 1 }

/-- U9: without reset a `bit_idx` above 39 in DATA or GAP is stuck, by name (log 13), and nothing else ever stops a step. -/
def Obligations.StepStopsOnlyOnBitIdxAbove39 : Prop :=
  ∀ s : State,
    ((∃ t, step s = .next t)
      ∨ (step s = .fault .bitIdxOutOfRange ∧ 39 < s.bitIdx.toNat ∧ (s.phase = .data ∨ s.phase = .gap)))
    ∧ (noReset 1 s → (s.phase = .data ∨ s.phase = .gap) → 39 < s.bitIdx.toNat → step s = .fault .bitIdxOutOfRange)

/-! ## The step -/

/-- A step runs the offered operation: in IDLE without reset, with the word of `i` on its channel (and for the CMD channel
no INIT offered), the step is `exec i` on the state with the offer withdrawn, the pulse of the step before over and the
`rst` sample used (10_state R32 to R34). -/
def Obligations.StepRunsTheOfferedOperation : Prop :=
  ∀ (i : Instr) (s : State), s.phase = .idle → noReset 1 s →
    (∀ w, encode i = .init w → s.initPort = some w →
      step s = exec i { s with initPort := none, rsp := none, rstInputs := s.rstInputs.tail })
    ∧ (∀ c, encode i = .cmd c → s.initPort = none → s.cmdPort = some c →
      step s = exec i { s with cmdPort := none, rsp := none, rstInputs := s.rstInputs.tail })

/-- A word placed by `withFetchWord` is the operation the very next step runs, and the table's decoder reads it (the model's
way of offering a program's word, log 3). -/
def Obligations.FetchedTableWordIsRun : Prop :=
  ∀ (i : Instr) (s : State) (nbits w : Nat), (nbits = 16 ∨ nbits = 40) → w < 2 ^ nbits →
    decodeTableWord nbits w = some i →
    ∃ t : State, step (s.withFetchWord nbits w) = exec i t
      ∧ t = { s with
          initPort := none, cmdPort := none, phase := .idle, dwell := 0#20, rsp := none
          rstInputs := if s.rstInputs.headD false then [] else s.rstInputs.tail }

/-- While busy without reset a step is the end of the phase's dwell, after the dwell has passed, which is exactly its
duration (00_scope R9; log 10); the host's next line may have come on the channels (log 20). -/
def Obligations.BusyStepEndsThePhase : Prop :=
  ∀ s : State, s.phase ≠ .idle → noReset 1 s →
    ∃ a b p, step s = endOfDwell
        { s with
          now := s.now + s.dwell.toNat, rsp := none, rstInputs := s.rstInputs.tail
          initPort := a, cmdPort := b, program := p }
      ∧ (s.initPort ≠ none ∨ s.cmdPort ≠ none → a = s.initPort ∧ b = s.cmdPort ∧ p = s.program)

/-- R106: in IDLE with nothing offered nothing is timed and nothing written; only the pulse of the step before ends. -/
def Obligations.IdleStepWithoutOfferChangesNothing : Prop :=
  ∀ s : State, s.phase = .idle → noReset 1 s → s.initPort = none → s.cmdPort = none → s.program = [] →
    step s = .next { s with rsp := none, rstInputs := s.rstInputs.tail }

/-- Of an INIT and a SEND offered in the same step while IDLE the INIT is accepted in it, legal or not, and the SEND goes on
waiting; in the next step the SEND is accepted and meets the LineConfig the INIT left (42_command_surface R133). That a
further INIT succeeds is the spec's decision, which U5 leaves open (log 12); that the accepted offer is withdrawn, the SEND
stays offered and no other INIT comes between them is the model's host (log 20). -/
def Obligations.InitGoesBeforeSend : Prop :=
  ∀ (p q : Pin) (d : Delay) (c : CmdWord) (s : State), s.phase = .idle → noReset 2 s →
    s.initPort = some (initWord p q d) → s.cmdPort = some c →
    s.cmdReady = false
    ∧ ∃ t, step s = .next t ∧ t.phase = .idle ∧ t.initPort = none ∧ t.cmdPort = some c
      ∧ (500 ≤ d.toNat → t.config = ⟨p, q, d⟩ ∧ t.initialized = true ∧ t.err = .errNone)
      ∧ (d.toNat < 500 → t.config = s.config ∧ t.initialized = s.initialized ∧ t.err = .errInvalidArgument)
      ∧ t.cmdReady = true
      ∧ step t = exec (decodeCmd c) { t with cmdPort := none, rsp := none, rstInputs := t.rstInputs.tail }

/-- With `rst` = 1 every piece of state takes its reset value, whatever the step would have done; MSG is unspecified; no
operation is accepted, no pulse is produced, and the trace is not cleared (70_reset_and_hazards R167). That no time passes
in such a step is the model's choice (log 11), and that the host's inputs go on its inference (log 22). -/
def Obligations.ResetInputEntersTheResetState : Prop :=
  ∀ s : State, s.rstInputs.headD false = true →
    ∃ m a b p d, step s = .next
        { State.reset with
          msg := m, initPort := a, cmdPort := b, program := p
          rstInputs := s.rstInputs.tail, lineFaults := s.lineFaults
          trace := s.trace, now := s.now, responses := s.responses, wireDraws := d }
      ∧ (s.initPort ≠ none ∨ s.cmdPort ≠ none → a = s.initPort ∧ b = s.cmdPort ∧ p = s.program)

/-- R38: the reset state has the values of the table of 10_state (MSG is unspecified there and not named here). -/
def Obligations.ResetStateHasTheTablesValues : Prop :=
  State.reset.initialized = false ∧ State.reset.phase = .idle ∧ State.reset.bitIdx = 0#6
  ∧ State.reset.dwell = 0#20 ∧ State.reset.presc = 0
  ∧ State.reset.rts = false ∧ State.reset.dtr = false ∧ State.reset.lineOe = false
  ∧ State.reset.err = .errNone ∧ State.reset.config = ⟨0#8, 0#8, 0#20⟩ ∧ State.reset.rsp = none
  ∧ State.reset.status = 0#13 ∧ State.reset.ports.linesO = none

/-! ## Rules of the whole machine -/

/-- The invariant holds at reset. -/
def Obligations.InvHoldsAtReset : Prop := Inv State.reset

/-- Every step from a state with the invariant leads to one: the position stays in range, each phase holds its line state
and its dwell, only initialised machines transmit, every stored delay is legal, every message sent is framed. -/
def Obligations.InvIsKeptByEveryStep : Prop :=
  ∀ s t : State, Inv s → step s = .next t → Inv t

/-- R24: `initialized` is 0 after reset, is set by an accepted valid INIT and by nothing else, is never cleared but by
hardware reset, and a valid SEND accepted while it is 0 raises NotInitialized. -/
def Obligations.InitializedIsSetByInitOnly : Prop :=
  State.reset.initialized = false
  ∧ (∀ (p q : Pin) (d : Delay) (s t : State), s.phase = .idle → 500 ≤ d.toNat →
      exec (.init p q d) s = .next t → t.initialized = true)
  ∧ (∀ s t : State, noReset 1 s → step s = .next t → s.initialized = true → t.initialized = true)
  ∧ (∀ s t : State, step s = .next t → s.initialized = false → t.initialized = true →
      s.phase = .idle ∧ ∃ (p q : Pin) (d : Delay), 500 ≤ d.toNat ∧ acceptsInit s p q d)
  ∧ (∀ (c : Command) (house : BitVec 4) (device : BitVec 5) (s : State), s.phase = .idle →
      s.initialized = false → 1 ≤ device.toNat → device.toNat ≤ 16 →
      ∃ t, exec (sendInstr c house device) s = .next t ∧ t.err = .errNotInitialized)

/-- While a transmission is in progress MSG, LineConfig, `initialized` and `line_oe` cannot change (20_memory R57,
42_command_surface R126, R127; derived there), and what is offered waits unchanged (R131). -/
def Obligations.BusyStepKeepsMessageAndConfig : Prop :=
  ∀ s t : State, s.phase ≠ .idle → noReset 1 s → step s = .next t →
    t.msg = s.msg ∧ t.config = s.config ∧ t.initialized = s.initialized ∧ t.lineOe = s.lineOe
    ∧ (s.initPort ≠ none ∨ s.cmdPort ≠ none →
        t.initPort = s.initPort ∧ t.cmdPort = s.cmdPort ∧ t.program = s.program)

/-- LineConfig changes only in a step that accepts a valid INIT in IDLE, or in a reset (10_state R28, R29). -/
def Obligations.OnlyInitChangesLineConfig : Prop :=
  ∀ s t : State, noReset 1 s → step s = .next t → t.config ≠ s.config →
    s.phase = .idle ∧ ∃ (p q : Pin) (d : Delay), acceptsInit s p q d ∧ 500 ≤ d.toNat ∧ t.config = ⟨p, q, d⟩

/-- R106: the only way out of IDLE but reset is an accepted, error-free SEND, and it leads to RESET. -/
def Obligations.OnlyAnErrorFreeSendLeavesIdle : Prop :=
  ∀ s t : State, s.phase = .idle → step s = .next t → t.phase ≠ .idle →
    t.phase = .reset ∧ s.initialized = true
    ∧ ∃ (c : Command) (house : BitVec 4) (device : BitVec 5),
        acceptsSend s c house device ∧ 1 ≤ device.toNat ∧ device.toNat ≤ 16

/-- R52: the trace only grows: by at most one hold and then at most one write, successful or failed, in a step; and the
output registers change only with such a write, to its line state, or with the first INIT (10_state R20, 42 R124). -/
def Obligations.LinesChangeOnlyByOneWriteAStep : Prop :=
  ∀ s t : State, noReset 1 s → step s = .next t →
    ∃ holds writes, t.trace = s.trace ++ holds ++ writes
      ∧ (holds = [] ∨ ∃ n, holds = [.held n])
      ∧ ((writes = [] ∧ ((t.rts = s.rts ∧ t.dtr = s.dtr) ∨ (s.lineOe = false ∧ t.lineOe = true)))
        ∨ ∃ ls, (writes = [.wrote ls] ∨ writes = [.failed ls]) ∧ t.lines = ls)

/-- Every completion is one pulse that carries the result in `err` and is recorded once; without a completion `err` keeps
its value (10_state R26, R34, 42_command_surface R134). -/
def Obligations.EachCompletionIsOnePulse : Prop :=
  ∀ s t : State, noReset 1 s → step s = .next t →
    (t.rsp = none ∧ t.err = s.err ∧ t.responses = s.responses)
    ∨ ∃ e, t.rsp = some e ∧ t.err = e ∧ t.responses = s.responses ++ [⟨t.now, e⟩] ∧ t.phase = .idle

/-- R135: what the channels carry during a transmission has no effect on it: two busy states that differ only in what the
host offers step to states that differ only in what the host offers. -/
def Obligations.OffersDoNotTouchATransmission : Prop :=
  ∀ (s t : State) (a : Option InitWord) (b : Option CmdWord) (p : List HostLine),
    s.phase ≠ .idle → noReset 1 s → step s = .next t →
    ∃ a' b' p', step { s with initPort := a, cmdPort := b, program := p }
      = .next { t with initPort := a', cmdPort := b', program := p' }

/-- From SETTLE to the end of a transmission at least one line is HIGH (41_transmitter R121, derived there), and the wires
carry the registers, whatever the free value of open wires is (log 9). -/
def Obligations.TransmissionKeepsALineHigh : Prop :=
  ∀ s : State, Inv s → s.phase ≠ .idle →
    s.wires = s.lines
    ∧ (s.phase ≠ .reset → lineRts s.wires = true ∨ lineDtr s.wires = true)

/-! ## Whole transmissions -/

/-- A fault-free transmission of any message with any delay appends exactly TraceOf, visits 83 phases and ends in IDLE at
Standby with ERR_NONE, `bit_idx` 39, and message, LineConfig and `initialized` unchanged (41_transmitter R109, R114, R115).
That it lasts exactly T_total, where R112 gives least times, is the model's choice (log 10). -/
def Obligations.FaultFreeTransmissionEmitsItsTrace : Prop :=
  ∀ s : State, noReset 83 s → noLineFault 82 s →
    ∃ t : State, Sys2Proof.core.run 83 (startTransmit s) = .next t
      ∧ t.trace = s.trace ++ traceOf s.msg s.config.bitDelay.toNat
      ∧ t.now = s.now + totalTime s.config.bitDelay.toNat
      ∧ t.phase = .idle ∧ t.lines = .standby ∧ t.bitIdx = 39#6
      ∧ t.err = .errNone ∧ t.rsp = some .errNone
      ∧ t.responses = s.responses ++ [⟨t.now, .errNone⟩]
      ∧ t.msg = s.msg ∧ t.config = s.config ∧ t.initialized = s.initialized ∧ t.lineOe = s.lineOe

/-- T4, R107: after `j` of its 83 phases a fault-free transmission is at the `j`-th position of the linear order, whatever the
message; `bit_idx` keeps its old value through RESET and SETTLE (C7). -/
def Obligations.TransmissionVisitsItsPhasesInOrder : Prop :=
  ∀ (s : State) (j : Nat), noReset 83 s → noLineFault 82 s → j ≤ 83 →
    ∃ t : State, Sys2Proof.core.run j (startTransmit s) = .next t
      ∧ t.phase = phaseAfter j ∧ t.bitIdx.toNat = bitIdxAfter s.bitIdx.toNat j

/-- The `k`-th line write, `k` = 1..82, is the last event of the first 2k - 1 events of TraceOf and is made at its time after
the accepting step (70_reset_and_hazards R184). The rule gives the least time; that it is exact is the model's choice
(log 10). -/
def Obligations.EachLineWriteComesAtItsTime : Prop :=
  ∀ (s : State) (k : Nat), noReset 83 s → noLineFault 82 s → 1 ≤ k → k ≤ 82 →
    ∃ (t : State) (ls : LineState), Sys2Proof.core.run (k - 1) (startTransmit s) = .next t
      ∧ t.trace = s.trace ++ (traceOf s.msg s.config.bitDelay.toNat).take (2 * k - 1)
      ∧ (traceOf s.msg s.config.bitDelay.toNat)[2 * k - 2]? = some (.wrote ls)
      ∧ t.lines = ls
      ∧ t.now = s.now + lineWriteTime s.config.bitDelay.toNat k

/-- If the write after `k` successful ones fails, `k` = 0..81, the transmission has made exactly the writes and holds before
it, then the failed one, and has completed with ERR_LINE_WRITE (41_transmitter R110, 60_exceptions R149). The wires are open
from then on (U3: log 9). -/
def Obligations.FaultAtAnyWriteTruncatesTheTrace : Prop :=
  ∀ (s : State) (k : Nat), k ≤ 81 → noReset 83 s → lineFaultAfter k s →
    ∃ (t : State) (ls : LineState), Sys2Proof.core.run k (startTransmit s) = .next t
      ∧ (traceOf s.msg s.config.bitDelay.toNat)[2 * k]? = some (.wrote ls)
      ∧ t.trace = s.trace ++ (traceOf s.msg s.config.bitDelay.toNat).take (2 * k) ++ [.failed ls]
      ∧ t.phase = .idle ∧ t.dwell = 0#20 ∧ t.err = .errLineWrite ∧ t.rsp = some .errLineWrite
      ∧ t.responses = s.responses ++ [⟨t.now, .errLineWrite⟩]
      ∧ t.lines = ls ∧ t.wireKnown = false
      ∧ t.msg = s.msg ∧ t.config = s.config ∧ t.initialized = s.initialized

/-- R132: every transmission ends, faults or not: from a busy state with the invariant and without reset the sequencer is in
IDLE again within 83 steps. -/
def Obligations.EveryTransmissionEnds : Prop :=
  ∀ s : State, Inv s → s.phase ≠ .idle → noReset 83 s →
    ∃ (k : Nat) (t : State), k ≤ 83 ∧ Sys2Proof.core.run k s = .next t ∧ t.phase = .idle

/-- R108, R109: TraceOf has 165 events, 82 of them writes, its holds sum to T_total, and as (state, duration) pairs it has 82
entries (R114). -/
def Obligations.TraceHasItsCountsAndDuration : Prop :=
  ∀ (m : Message) (d : Nat),
    (traceOf m d).length = 165 ∧ writesIn (traceOf m d) = 82
    ∧ heldTime (traceOf m d) = 1035000 + 81 * d
    ∧ (statePairs (traceOf m d)).length = 82
    ∧ ((statePairs (traceOf m d)).map Prod.snd).sum = 1035000 + 81 * d

/-- The table of 41_transmitter R121 (derived there): which line moves at each write. -/
def Obligations.EachWriteMovesTheLinesOfItsRow : Prop :=
  writeEdges .standby .reset = (.falls, .falls)
  ∧ writeEdges .reset .reset = (.unmoved, .unmoved)
  ∧ writeEdges .reset .standby = (.rises, .rises)
  ∧ writeEdges .standby (stateOfBit true) = (.unmoved, .falls)
  ∧ writeEdges (stateOfBit true) .standby = (.unmoved, .rises)
  ∧ writeEdges .standby (stateOfBit false) = (.falls, .unmoved)
  ∧ writeEdges (stateOfBit false) .standby = (.rises, .unmoved)

/-! ## The host's side, and the clock level -/

/-- R128: `delay_us = bitDelayMs × 1000`, where that is a whole number of µs of at most 1048.575 ms, and nothing otherwise. -/
def Obligations.MillisecondsConvertToWholeMicroseconds : Prop :=
  (∀ (num den : Nat) (d : Delay), delayOfMs num den = some d → d.toNat * den = num * 1000)
  ∧ (∀ (num den us : Nat), den ≠ 0 → us * den = num * 1000 → us ≤ 1048575 →
      delayOfMs num den = some (BitVec.ofNat 20 us))
  ∧ delayOfMs 1 1 = some 1000#20 ∧ delayOfMs 1 2 = some 500#20

/-- R120: at any clock frequency that is a whole multiple of 1 MHz, the clock edges of the µs a phase has left, with the
prescaler at 0 and no reset, do exactly what one phase-level step does; both hold a dwell for exactly its duration (log 10). -/
def Obligations.ClockEdgesOfAPhaseAreOnePhaseStep : Prop :=
  ∀ (div : Nat) (s : State), 1 ≤ div → s.phase ≠ .idle → s.presc = 0 → 1 ≤ s.dwell.toNat → s.rstInputs = [] →
    clockRun (1000000 * div) (s.dwell.toNat * div) s = step s

/-- In IDLE a clock edge is a phase-level step (41_transmitter R118, R120). -/
def Obligations.ClockEdgeInIdleIsAPhaseStep : Prop :=
  ∀ (clkHz : Nat) (s : State), s.phase = .idle → s.presc = 0 → clockStep clkHz s = step s

/-- At any frequency of at least 1 MHz every clock edge keeps the clock level's invariant: the prescaler stays below DIV, a
running dwell between 1 and its phase's duration (41_transmitter R118, R119). -/
def Obligations.ClockInvIsKeptByEveryEdge : Prop :=
  ∀ (clkHz : Nat) (s t : State), 1000000 ≤ clkHz → ClockInv clkHz s → clockStep clkHz s = .next t → ClockInv clkHz t

/-- No run of clock edges from a state with the clock level's invariant stops (U9 is unreachable). -/
def Obligations.ClockRunsNeverStop : Prop :=
  ∀ (clkHz n : Nat) (s : State), 1000000 ≤ clkHz → ClockInv clkHz s →
    ∃ t, clockRun clkHz n s = .next t
end

