-- ==== Sys2Proof/Laws/State.lean ====
section
/-! SUPPORT. What each shared update of the state writes and what it leaves alone: one lemma per field and update, so that
no later proof unfolds a record update. -/

namespace Sys2Proof.Machine

/-! ### complete -/

@[simp] theorem complete_msg (e : ErrCode) (s : State) : (complete e s).msg = s.msg := rfl
@[simp] theorem complete_phase (e : ErrCode) (s : State) : (complete e s).phase = s.phase := rfl
@[simp] theorem complete_bitIdx (e : ErrCode) (s : State) : (complete e s).bitIdx = s.bitIdx := rfl
@[simp] theorem complete_dwell (e : ErrCode) (s : State) : (complete e s).dwell = s.dwell := rfl
@[simp] theorem complete_rts (e : ErrCode) (s : State) : (complete e s).rts = s.rts := rfl
@[simp] theorem complete_dtr (e : ErrCode) (s : State) : (complete e s).dtr = s.dtr := rfl
@[simp] theorem complete_lineOe (e : ErrCode) (s : State) : (complete e s).lineOe = s.lineOe := rfl
@[simp] theorem complete_initialized (e : ErrCode) (s : State) : (complete e s).initialized = s.initialized := rfl
@[simp] theorem complete_err (e : ErrCode) (s : State) : (complete e s).err = e := rfl
@[simp] theorem complete_config (e : ErrCode) (s : State) : (complete e s).config = s.config := rfl
@[simp] theorem complete_rsp (e : ErrCode) (s : State) : (complete e s).rsp = some e := rfl
@[simp] theorem complete_presc (e : ErrCode) (s : State) : (complete e s).presc = s.presc := rfl
@[simp] theorem complete_initPort (e : ErrCode) (s : State) : (complete e s).initPort = s.initPort := rfl
@[simp] theorem complete_cmdPort (e : ErrCode) (s : State) : (complete e s).cmdPort = s.cmdPort := rfl
@[simp] theorem complete_program (e : ErrCode) (s : State) : (complete e s).program = s.program := rfl
@[simp] theorem complete_rstInputs (e : ErrCode) (s : State) : (complete e s).rstInputs = s.rstInputs := rfl
@[simp] theorem complete_lineFaults (e : ErrCode) (s : State) : (complete e s).lineFaults = s.lineFaults := rfl
@[simp] theorem complete_trace (e : ErrCode) (s : State) : (complete e s).trace = s.trace := rfl
@[simp] theorem complete_now (e : ErrCode) (s : State) : (complete e s).now = s.now := rfl
@[simp] theorem complete_responses (e : ErrCode) (s : State) : (complete e s).responses = s.responses ++ [⟨s.now, e⟩] := rfl
@[simp] theorem complete_wireKnown (e : ErrCode) (s : State) : (complete e s).wireKnown = s.wireKnown := rfl
@[simp] theorem complete_wireDraws (e : ErrCode) (s : State) : (complete e s).wireDraws = s.wireDraws := rfl

/-! ### raiseError -/

@[simp] theorem raiseError_msg (e : ErrCode) (s : State) : (raiseError e s).msg = s.msg := rfl
@[simp] theorem raiseError_phase (e : ErrCode) (s : State) : (raiseError e s).phase = .idle := rfl
@[simp] theorem raiseError_bitIdx (e : ErrCode) (s : State) : (raiseError e s).bitIdx = s.bitIdx := rfl
@[simp] theorem raiseError_dwell (e : ErrCode) (s : State) : (raiseError e s).dwell = 0#20 := rfl
@[simp] theorem raiseError_rts (e : ErrCode) (s : State) : (raiseError e s).rts = s.rts := rfl
@[simp] theorem raiseError_dtr (e : ErrCode) (s : State) : (raiseError e s).dtr = s.dtr := rfl
@[simp] theorem raiseError_lineOe (e : ErrCode) (s : State) : (raiseError e s).lineOe = s.lineOe := rfl
@[simp] theorem raiseError_initialized (e : ErrCode) (s : State) : (raiseError e s).initialized = s.initialized := rfl
@[simp] theorem raiseError_err (e : ErrCode) (s : State) : (raiseError e s).err = e := rfl
@[simp] theorem raiseError_config (e : ErrCode) (s : State) : (raiseError e s).config = s.config := rfl
@[simp] theorem raiseError_rsp (e : ErrCode) (s : State) : (raiseError e s).rsp = some e := rfl
@[simp] theorem raiseError_presc (e : ErrCode) (s : State) : (raiseError e s).presc = s.presc := rfl
@[simp] theorem raiseError_initPort (e : ErrCode) (s : State) : (raiseError e s).initPort = s.initPort := rfl
@[simp] theorem raiseError_cmdPort (e : ErrCode) (s : State) : (raiseError e s).cmdPort = s.cmdPort := rfl
@[simp] theorem raiseError_program (e : ErrCode) (s : State) : (raiseError e s).program = s.program := rfl
@[simp] theorem raiseError_rstInputs (e : ErrCode) (s : State) : (raiseError e s).rstInputs = s.rstInputs := rfl
@[simp] theorem raiseError_lineFaults (e : ErrCode) (s : State) : (raiseError e s).lineFaults = s.lineFaults := rfl
@[simp] theorem raiseError_trace (e : ErrCode) (s : State) : (raiseError e s).trace = s.trace := rfl
@[simp] theorem raiseError_now (e : ErrCode) (s : State) : (raiseError e s).now = s.now := rfl
@[simp] theorem raiseError_responses (e : ErrCode) (s : State) : (raiseError e s).responses = s.responses ++ [⟨s.now, e⟩] := rfl
@[simp] theorem raiseError_wireKnown (e : ErrCode) (s : State) : (raiseError e s).wireKnown = s.wireKnown := rfl
@[simp] theorem raiseError_wireDraws (e : ErrCode) (s : State) : (raiseError e s).wireDraws = s.wireDraws := rfl

/-! ### driveLines -/

@[simp] theorem driveLines_msg (ls : LineState) (s : State) : (driveLines ls s).msg = s.msg := rfl
@[simp] theorem driveLines_phase (ls : LineState) (s : State) : (driveLines ls s).phase = s.phase := rfl
@[simp] theorem driveLines_bitIdx (ls : LineState) (s : State) : (driveLines ls s).bitIdx = s.bitIdx := rfl
@[simp] theorem driveLines_dwell (ls : LineState) (s : State) : (driveLines ls s).dwell = s.dwell := rfl
@[simp] theorem driveLines_rts (ls : LineState) (s : State) : (driveLines ls s).rts = lineRts ls := rfl
@[simp] theorem driveLines_dtr (ls : LineState) (s : State) : (driveLines ls s).dtr = lineDtr ls := rfl
@[simp] theorem driveLines_lineOe (ls : LineState) (s : State) : (driveLines ls s).lineOe = s.lineOe := rfl
@[simp] theorem driveLines_initialized (ls : LineState) (s : State) : (driveLines ls s).initialized = s.initialized := rfl
@[simp] theorem driveLines_err (ls : LineState) (s : State) : (driveLines ls s).err = s.err := rfl
@[simp] theorem driveLines_config (ls : LineState) (s : State) : (driveLines ls s).config = s.config := rfl
@[simp] theorem driveLines_rsp (ls : LineState) (s : State) : (driveLines ls s).rsp = s.rsp := rfl
@[simp] theorem driveLines_presc (ls : LineState) (s : State) : (driveLines ls s).presc = s.presc := rfl
@[simp] theorem driveLines_initPort (ls : LineState) (s : State) : (driveLines ls s).initPort = s.initPort := rfl
@[simp] theorem driveLines_cmdPort (ls : LineState) (s : State) : (driveLines ls s).cmdPort = s.cmdPort := rfl
@[simp] theorem driveLines_program (ls : LineState) (s : State) : (driveLines ls s).program = s.program := rfl
@[simp] theorem driveLines_rstInputs (ls : LineState) (s : State) : (driveLines ls s).rstInputs = s.rstInputs := rfl
@[simp] theorem driveLines_lineFaults (ls : LineState) (s : State) : (driveLines ls s).lineFaults = s.lineFaults.tail := rfl
@[simp] theorem driveLines_trace (ls : LineState) (s : State) : (driveLines ls s).trace = s.trace := rfl
@[simp] theorem driveLines_now (ls : LineState) (s : State) : (driveLines ls s).now = s.now := rfl
@[simp] theorem driveLines_responses (ls : LineState) (s : State) : (driveLines ls s).responses = s.responses := rfl
@[simp] theorem driveLines_wireKnown (ls : LineState) (s : State) : (driveLines ls s).wireKnown = s.wireKnown := rfl
@[simp] theorem driveLines_wireDraws (ls : LineState) (s : State) : (driveLines ls s).wireDraws = s.wireDraws := rfl

/-! ### enterPhase -/

@[simp] theorem enterPhase_msg (p : Phase) (s : State) : (enterPhase p s).msg = s.msg := rfl
@[simp] theorem enterPhase_phase (p : Phase) (s : State) : (enterPhase p s).phase = p := rfl
@[simp] theorem enterPhase_bitIdx (p : Phase) (s : State) : (enterPhase p s).bitIdx = s.bitIdx := rfl
@[simp] theorem enterPhase_dwell (p : Phase) (s : State) : (enterPhase p s).dwell = phaseDuration p s.config.bitDelay := rfl
@[simp] theorem enterPhase_rts (p : Phase) (s : State) : (enterPhase p s).rts = s.rts := rfl
@[simp] theorem enterPhase_dtr (p : Phase) (s : State) : (enterPhase p s).dtr = s.dtr := rfl
@[simp] theorem enterPhase_lineOe (p : Phase) (s : State) : (enterPhase p s).lineOe = s.lineOe := rfl
@[simp] theorem enterPhase_initialized (p : Phase) (s : State) : (enterPhase p s).initialized = s.initialized := rfl
@[simp] theorem enterPhase_err (p : Phase) (s : State) : (enterPhase p s).err = s.err := rfl
@[simp] theorem enterPhase_config (p : Phase) (s : State) : (enterPhase p s).config = s.config := rfl
@[simp] theorem enterPhase_rsp (p : Phase) (s : State) : (enterPhase p s).rsp = s.rsp := rfl
@[simp] theorem enterPhase_presc (p : Phase) (s : State) : (enterPhase p s).presc = s.presc := rfl
@[simp] theorem enterPhase_initPort (p : Phase) (s : State) : (enterPhase p s).initPort = s.initPort := rfl
@[simp] theorem enterPhase_cmdPort (p : Phase) (s : State) : (enterPhase p s).cmdPort = s.cmdPort := rfl
@[simp] theorem enterPhase_program (p : Phase) (s : State) : (enterPhase p s).program = s.program := rfl
@[simp] theorem enterPhase_rstInputs (p : Phase) (s : State) : (enterPhase p s).rstInputs = s.rstInputs := rfl
@[simp] theorem enterPhase_lineFaults (p : Phase) (s : State) : (enterPhase p s).lineFaults = s.lineFaults := rfl
@[simp] theorem enterPhase_trace (p : Phase) (s : State) : (enterPhase p s).trace = s.trace := rfl
@[simp] theorem enterPhase_now (p : Phase) (s : State) : (enterPhase p s).now = s.now := rfl
@[simp] theorem enterPhase_responses (p : Phase) (s : State) : (enterPhase p s).responses = s.responses := rfl
@[simp] theorem enterPhase_wireKnown (p : Phase) (s : State) : (enterPhase p s).wireKnown = s.wireKnown := rfl
@[simp] theorem enterPhase_wireDraws (p : Phase) (s : State) : (enterPhase p s).wireDraws = s.wireDraws := rfl

/-! ### endHold -/

@[simp] theorem endHold_msg (s : State) : (endHold s).msg = s.msg := rfl
@[simp] theorem endHold_phase (s : State) : (endHold s).phase = s.phase := rfl
@[simp] theorem endHold_bitIdx (s : State) : (endHold s).bitIdx = s.bitIdx := rfl
@[simp] theorem endHold_dwell (s : State) : (endHold s).dwell = s.dwell := rfl
@[simp] theorem endHold_rts (s : State) : (endHold s).rts = s.rts := rfl
@[simp] theorem endHold_dtr (s : State) : (endHold s).dtr = s.dtr := rfl
@[simp] theorem endHold_lineOe (s : State) : (endHold s).lineOe = s.lineOe := rfl
@[simp] theorem endHold_initialized (s : State) : (endHold s).initialized = s.initialized := rfl
@[simp] theorem endHold_err (s : State) : (endHold s).err = s.err := rfl
@[simp] theorem endHold_config (s : State) : (endHold s).config = s.config := rfl
@[simp] theorem endHold_rsp (s : State) : (endHold s).rsp = s.rsp := rfl
@[simp] theorem endHold_presc (s : State) : (endHold s).presc = s.presc := rfl
@[simp] theorem endHold_initPort (s : State) : (endHold s).initPort = s.initPort := rfl
@[simp] theorem endHold_cmdPort (s : State) : (endHold s).cmdPort = s.cmdPort := rfl
@[simp] theorem endHold_program (s : State) : (endHold s).program = s.program := rfl
@[simp] theorem endHold_rstInputs (s : State) : (endHold s).rstInputs = s.rstInputs := rfl
@[simp] theorem endHold_lineFaults (s : State) : (endHold s).lineFaults = s.lineFaults := rfl
@[simp] theorem endHold_trace (s : State) : (endHold s).trace = s.trace ++ [.held (phaseDuration s.phase s.config.bitDelay).toNat] := rfl
@[simp] theorem endHold_now (s : State) : (endHold s).now = s.now := rfl
@[simp] theorem endHold_responses (s : State) : (endHold s).responses = s.responses := rfl
@[simp] theorem endHold_wireKnown (s : State) : (endHold s).wireKnown = s.wireKnown := rfl
@[simp] theorem endHold_wireDraws (s : State) : (endHold s).wireDraws = s.wireDraws := rfl

/-! ### configure -/

@[simp] theorem configure_msg (p q : Pin) (d : Delay) (s : State) : (configure p q d s).msg = s.msg := rfl
@[simp] theorem configure_phase (p q : Pin) (d : Delay) (s : State) : (configure p q d s).phase = s.phase := rfl
@[simp] theorem configure_bitIdx (p q : Pin) (d : Delay) (s : State) : (configure p q d s).bitIdx = s.bitIdx := rfl
@[simp] theorem configure_dwell (p q : Pin) (d : Delay) (s : State) : (configure p q d s).dwell = s.dwell := rfl
@[simp] theorem configure_rts (p q : Pin) (d : Delay) (s : State) : (configure p q d s).rts = s.rts := rfl
@[simp] theorem configure_dtr (p q : Pin) (d : Delay) (s : State) : (configure p q d s).dtr = s.dtr := rfl
@[simp] theorem configure_lineOe (p q : Pin) (d : Delay) (s : State) : (configure p q d s).lineOe = s.lineOe := rfl
@[simp] theorem configure_initialized (p q : Pin) (d : Delay) (s : State) : (configure p q d s).initialized = true := rfl
@[simp] theorem configure_err (p q : Pin) (d : Delay) (s : State) : (configure p q d s).err = s.err := rfl
@[simp] theorem configure_config (p q : Pin) (d : Delay) (s : State) : (configure p q d s).config = ⟨p, q, d⟩ := rfl
@[simp] theorem configure_rsp (p q : Pin) (d : Delay) (s : State) : (configure p q d s).rsp = s.rsp := rfl
@[simp] theorem configure_presc (p q : Pin) (d : Delay) (s : State) : (configure p q d s).presc = s.presc := rfl
@[simp] theorem configure_initPort (p q : Pin) (d : Delay) (s : State) : (configure p q d s).initPort = s.initPort := rfl
@[simp] theorem configure_cmdPort (p q : Pin) (d : Delay) (s : State) : (configure p q d s).cmdPort = s.cmdPort := rfl
@[simp] theorem configure_program (p q : Pin) (d : Delay) (s : State) : (configure p q d s).program = s.program := rfl
@[simp] theorem configure_rstInputs (p q : Pin) (d : Delay) (s : State) : (configure p q d s).rstInputs = s.rstInputs := rfl
@[simp] theorem configure_lineFaults (p q : Pin) (d : Delay) (s : State) : (configure p q d s).lineFaults = s.lineFaults := rfl
@[simp] theorem configure_trace (p q : Pin) (d : Delay) (s : State) : (configure p q d s).trace = s.trace := rfl
@[simp] theorem configure_now (p q : Pin) (d : Delay) (s : State) : (configure p q d s).now = s.now := rfl
@[simp] theorem configure_responses (p q : Pin) (d : Delay) (s : State) : (configure p q d s).responses = s.responses := rfl
@[simp] theorem configure_wireKnown (p q : Pin) (d : Delay) (s : State) : (configure p q d s).wireKnown = s.wireKnown := rfl
@[simp] theorem configure_wireDraws (p q : Pin) (d : Delay) (s : State) : (configure p q d s).wireDraws = s.wireDraws := rfl

/-! ### hardwareReset -/

@[simp] theorem hardwareReset_msg (s : State) : (hardwareReset s).msg = 0#40 := rfl
@[simp] theorem hardwareReset_phase (s : State) : (hardwareReset s).phase = .idle := rfl
@[simp] theorem hardwareReset_bitIdx (s : State) : (hardwareReset s).bitIdx = 0#6 := rfl
@[simp] theorem hardwareReset_dwell (s : State) : (hardwareReset s).dwell = 0#20 := rfl
@[simp] theorem hardwareReset_rts (s : State) : (hardwareReset s).rts = false := rfl
@[simp] theorem hardwareReset_dtr (s : State) : (hardwareReset s).dtr = false := rfl
@[simp] theorem hardwareReset_lineOe (s : State) : (hardwareReset s).lineOe = false := rfl
@[simp] theorem hardwareReset_initialized (s : State) : (hardwareReset s).initialized = false := rfl
@[simp] theorem hardwareReset_err (s : State) : (hardwareReset s).err = .errNone := rfl
@[simp] theorem hardwareReset_config (s : State) : (hardwareReset s).config = ⟨0#8, 0#8, 0#20⟩ := rfl
@[simp] theorem hardwareReset_rsp (s : State) : (hardwareReset s).rsp = none := rfl
@[simp] theorem hardwareReset_presc (s : State) : (hardwareReset s).presc = 0 := rfl
@[simp] theorem hardwareReset_initPort (s : State) : (hardwareReset s).initPort = s.initPort := rfl
@[simp] theorem hardwareReset_cmdPort (s : State) : (hardwareReset s).cmdPort = s.cmdPort := rfl
@[simp] theorem hardwareReset_program (s : State) : (hardwareReset s).program = s.program := rfl
@[simp] theorem hardwareReset_rstInputs (s : State) : (hardwareReset s).rstInputs = s.rstInputs := rfl
@[simp] theorem hardwareReset_lineFaults (s : State) : (hardwareReset s).lineFaults = s.lineFaults := rfl
@[simp] theorem hardwareReset_trace (s : State) : (hardwareReset s).trace = s.trace := rfl
@[simp] theorem hardwareReset_now (s : State) : (hardwareReset s).now = s.now := rfl
@[simp] theorem hardwareReset_responses (s : State) : (hardwareReset s).responses = s.responses := rfl
@[simp] theorem hardwareReset_wireKnown (s : State) : (hardwareReset s).wireKnown = false := rfl
@[simp] theorem hardwareReset_wireDraws (s : State) : (hardwareReset s).wireDraws = s.wireDraws + 1 := rfl

/-! ### enableLines: the first INIT drives LOW, LOW; a later one changes nothing -/

@[simp] theorem enableLines_msg (s : State) : (enableLines s).msg = s.msg := by
  cases h : s.lineOe <;> simp [enableLines, h]
@[simp] theorem enableLines_phase (s : State) : (enableLines s).phase = s.phase := by
  cases h : s.lineOe <;> simp [enableLines, h]
@[simp] theorem enableLines_bitIdx (s : State) : (enableLines s).bitIdx = s.bitIdx := by
  cases h : s.lineOe <;> simp [enableLines, h]
@[simp] theorem enableLines_dwell (s : State) : (enableLines s).dwell = s.dwell := by
  cases h : s.lineOe <;> simp [enableLines, h]
@[simp] theorem enableLines_rts (s : State) : (enableLines s).rts = (if s.lineOe then s.rts else false) := by
  cases h : s.lineOe <;> simp [enableLines, h]
@[simp] theorem enableLines_dtr (s : State) : (enableLines s).dtr = (if s.lineOe then s.dtr else false) := by
  cases h : s.lineOe <;> simp [enableLines, h]
@[simp] theorem enableLines_lineOe (s : State) : (enableLines s).lineOe = true := by
  cases h : s.lineOe <;> simp [enableLines, h]
@[simp] theorem enableLines_initialized (s : State) : (enableLines s).initialized = s.initialized := by
  cases h : s.lineOe <;> simp [enableLines, h]
@[simp] theorem enableLines_err (s : State) : (enableLines s).err = s.err := by
  cases h : s.lineOe <;> simp [enableLines, h]
@[simp] theorem enableLines_config (s : State) : (enableLines s).config = s.config := by
  cases h : s.lineOe <;> simp [enableLines, h]
@[simp] theorem enableLines_rsp (s : State) : (enableLines s).rsp = s.rsp := by
  cases h : s.lineOe <;> simp [enableLines, h]
@[simp] theorem enableLines_presc (s : State) : (enableLines s).presc = s.presc := by
  cases h : s.lineOe <;> simp [enableLines, h]
@[simp] theorem enableLines_initPort (s : State) : (enableLines s).initPort = s.initPort := by
  cases h : s.lineOe <;> simp [enableLines, h]
@[simp] theorem enableLines_cmdPort (s : State) : (enableLines s).cmdPort = s.cmdPort := by
  cases h : s.lineOe <;> simp [enableLines, h]
@[simp] theorem enableLines_program (s : State) : (enableLines s).program = s.program := by
  cases h : s.lineOe <;> simp [enableLines, h]
@[simp] theorem enableLines_rstInputs (s : State) : (enableLines s).rstInputs = s.rstInputs := by
  cases h : s.lineOe <;> simp [enableLines, h]
@[simp] theorem enableLines_lineFaults (s : State) : (enableLines s).lineFaults = s.lineFaults := by
  cases h : s.lineOe <;> simp [enableLines, h]
@[simp] theorem enableLines_trace (s : State) : (enableLines s).trace = s.trace := by
  cases h : s.lineOe <;> simp [enableLines, h]
@[simp] theorem enableLines_now (s : State) : (enableLines s).now = s.now := by
  cases h : s.lineOe <;> simp [enableLines, h]
@[simp] theorem enableLines_responses (s : State) : (enableLines s).responses = s.responses := by
  cases h : s.lineOe <;> simp [enableLines, h]
@[simp] theorem enableLines_wireKnown (s : State) : (enableLines s).wireKnown = (if s.lineOe then s.wireKnown else false) := by
  cases h : s.lineOe <;> simp [enableLines, h]
@[simp] theorem enableLines_wireDraws (s : State) : (enableLines s).wireDraws = (if s.lineOe then s.wireDraws else s.wireDraws + 1) := by
  cases h : s.lineOe <;> simp [enableLines, h]

/-! ### loadPorts and beginStep: only the host's fields, the pulse and the reset sample -/

@[simp] theorem loadPorts_msg (s : State) : (loadPorts s).msg = s.msg := by
  unfold loadPorts; split <;> [split; skip] <;> rfl
@[simp] theorem loadPorts_phase (s : State) : (loadPorts s).phase = s.phase := by
  unfold loadPorts; split <;> [split; skip] <;> rfl
@[simp] theorem loadPorts_bitIdx (s : State) : (loadPorts s).bitIdx = s.bitIdx := by
  unfold loadPorts; split <;> [split; skip] <;> rfl
@[simp] theorem loadPorts_dwell (s : State) : (loadPorts s).dwell = s.dwell := by
  unfold loadPorts; split <;> [split; skip] <;> rfl
@[simp] theorem loadPorts_rts (s : State) : (loadPorts s).rts = s.rts := by
  unfold loadPorts; split <;> [split; skip] <;> rfl
@[simp] theorem loadPorts_dtr (s : State) : (loadPorts s).dtr = s.dtr := by
  unfold loadPorts; split <;> [split; skip] <;> rfl
@[simp] theorem loadPorts_lineOe (s : State) : (loadPorts s).lineOe = s.lineOe := by
  unfold loadPorts; split <;> [split; skip] <;> rfl
@[simp] theorem loadPorts_initialized (s : State) : (loadPorts s).initialized = s.initialized := by
  unfold loadPorts; split <;> [split; skip] <;> rfl
@[simp] theorem loadPorts_err (s : State) : (loadPorts s).err = s.err := by
  unfold loadPorts; split <;> [split; skip] <;> rfl
@[simp] theorem loadPorts_config (s : State) : (loadPorts s).config = s.config := by
  unfold loadPorts; split <;> [split; skip] <;> rfl
@[simp] theorem loadPorts_rsp (s : State) : (loadPorts s).rsp = s.rsp := by
  unfold loadPorts; split <;> [split; skip] <;> rfl
@[simp] theorem loadPorts_presc (s : State) : (loadPorts s).presc = s.presc := by
  unfold loadPorts; split <;> [split; skip] <;> rfl
@[simp] theorem loadPorts_rstInputs (s : State) : (loadPorts s).rstInputs = s.rstInputs := by
  unfold loadPorts; split <;> [split; skip] <;> rfl
@[simp] theorem loadPorts_lineFaults (s : State) : (loadPorts s).lineFaults = s.lineFaults := by
  unfold loadPorts; split <;> [split; skip] <;> rfl
@[simp] theorem loadPorts_trace (s : State) : (loadPorts s).trace = s.trace := by
  unfold loadPorts; split <;> [split; skip] <;> rfl
@[simp] theorem loadPorts_now (s : State) : (loadPorts s).now = s.now := by
  unfold loadPorts; split <;> [split; skip] <;> rfl
@[simp] theorem loadPorts_responses (s : State) : (loadPorts s).responses = s.responses := by
  unfold loadPorts; split <;> [split; skip] <;> rfl
@[simp] theorem loadPorts_wireKnown (s : State) : (loadPorts s).wireKnown = s.wireKnown := by
  unfold loadPorts; split <;> [split; skip] <;> rfl
@[simp] theorem loadPorts_wireDraws (s : State) : (loadPorts s).wireDraws = s.wireDraws := by
  unfold loadPorts; split <;> [split; skip] <;> rfl
@[simp] theorem beginStep_msg (s : State) : (beginStep s).msg = s.msg := loadPorts_msg s
@[simp] theorem beginStep_phase (s : State) : (beginStep s).phase = s.phase := loadPorts_phase s
@[simp] theorem beginStep_bitIdx (s : State) : (beginStep s).bitIdx = s.bitIdx := loadPorts_bitIdx s
@[simp] theorem beginStep_dwell (s : State) : (beginStep s).dwell = s.dwell := loadPorts_dwell s
@[simp] theorem beginStep_rts (s : State) : (beginStep s).rts = s.rts := loadPorts_rts s
@[simp] theorem beginStep_dtr (s : State) : (beginStep s).dtr = s.dtr := loadPorts_dtr s
@[simp] theorem beginStep_lineOe (s : State) : (beginStep s).lineOe = s.lineOe := loadPorts_lineOe s
@[simp] theorem beginStep_initialized (s : State) : (beginStep s).initialized = s.initialized := loadPorts_initialized s
@[simp] theorem beginStep_err (s : State) : (beginStep s).err = s.err := loadPorts_err s
@[simp] theorem beginStep_config (s : State) : (beginStep s).config = s.config := loadPorts_config s
@[simp] theorem beginStep_rsp (s : State) : (beginStep s).rsp = none := rfl
@[simp] theorem beginStep_presc (s : State) : (beginStep s).presc = s.presc := loadPorts_presc s
@[simp] theorem beginStep_initPort (s : State) : (beginStep s).initPort = (loadPorts s).initPort := rfl
@[simp] theorem beginStep_cmdPort (s : State) : (beginStep s).cmdPort = (loadPorts s).cmdPort := rfl
@[simp] theorem beginStep_program (s : State) : (beginStep s).program = (loadPorts s).program := rfl
@[simp] theorem beginStep_rstInputs (s : State) : (beginStep s).rstInputs = s.rstInputs.tail := rfl
@[simp] theorem beginStep_lineFaults (s : State) : (beginStep s).lineFaults = s.lineFaults := loadPorts_lineFaults s
@[simp] theorem beginStep_trace (s : State) : (beginStep s).trace = s.trace := loadPorts_trace s
@[simp] theorem beginStep_now (s : State) : (beginStep s).now = s.now := loadPorts_now s
@[simp] theorem beginStep_responses (s : State) : (beginStep s).responses = s.responses := loadPorts_responses s
@[simp] theorem beginStep_wireKnown (s : State) : (beginStep s).wireKnown = s.wireKnown := loadPorts_wireKnown s
@[simp] theorem beginStep_wireDraws (s : State) : (beginStep s).wireDraws = s.wireDraws := loadPorts_wireDraws s

/-- An offer that waits is kept: the host's next line does not come. -/
theorem loadPorts_of_waiting {s : State} (h : s.initPort ≠ none ∨ s.cmdPort ≠ none) : loadPorts s = s := by
  unfold loadPorts
  rw [if_neg (by rintro ⟨h1, h2⟩; exact h.elim (· h1) (· h2))]

/-- With an empty program no line comes. -/
theorem loadPorts_of_empty {s : State} (h : s.program = []) : loadPorts s = s := by
  unfold loadPorts
  split
  · rw [h]
  · rfl

/-- A line that has come waits: loading again changes nothing. -/
theorem loadPorts_loadPorts (s : State) : loadPorts (loadPorts s) = loadPorts s := by
  by_cases h : s.initPort = none ∧ s.cmdPort = none
  · cases hp : s.program with
    | nil => rw [loadPorts_of_empty hp, loadPorts_of_empty hp]
    | cons l rest => cases l <;> simp [loadPorts, h, hp]
  · have hw : loadPorts s = s := loadPorts_of_waiting (by simpa [or_iff_not_imp_left] using h)
    rw [hw, hw]

/-- Loading the host's line writes only the host's fields. -/
theorem loadPorts_eq (s : State) :
    loadPorts s = { s with
      initPort := (loadPorts s).initPort
      cmdPort := (loadPorts s).cmdPort
      program := (loadPorts s).program } := by
  unfold loadPorts; split <;> [split; skip] <;> rfl

/-- The beginning of a step writes only the host's fields, the pulse and the reset samples. -/
theorem beginStep_eq (s : State) :
    beginStep s = { s with
      rsp := none
      rstInputs := s.rstInputs.tail
      initPort := (loadPorts s).initPort
      cmdPort := (loadPorts s).cmdPort
      program := (loadPorts s).program } := by
  rw [beginStep, loadPorts_eq s]

end Sys2Proof.Machine
end

