-- ==== Sys2Proof/Laws/Ops.lean ====
section
/-! SUPPORT. One lemma per shared operation that says everything it can do, so that proofs cite it and do not unfold it. -/

namespace Sys2Proof.Machine

/-! ## Inputs of a run -/

theorem noReset_one {s : State} : noReset 1 s ↔ rstAsserted s = false := by
  unfold noReset rstAsserted
  constructor
  · intro h
    have := h 0 (by omega)
    cases hl : s.rstInputs <;> simp_all
  · intro h j hj
    obtain rfl : j = 0 := by omega
    cases hl : s.rstInputs <;> simp_all

theorem noReset_tail {n : Nat} {s : State} (h : noReset (n + 1) s) (j : Nat) (hj : j < n) :
    s.rstInputs.tail.getD j false = false := by
  have := h (j + 1) (by omega)
  cases hl : s.rstInputs <;> simp_all

theorem noReset_mono {m n : Nat} {s : State} (hmn : m ≤ n) (h : noReset n s) : noReset m s :=
  fun j hj => h j (by omega)

theorem noLineFault_mono {m n : Nat} {s : State} (hmn : m ≤ n) (h : noLineFault n s) : noLineFault m s :=
  fun j hj => h j (by omega)

theorem noLineFault_tail {n : Nat} {s : State} (h : noLineFault (n + 1) s) (j : Nat) (hj : j < n) :
    s.lineFaults.tail.getD j false = false := by
  have := h (j + 1) (by omega)
  cases hl : s.lineFaults <;> simp_all

theorem lineFault_of_noLineFault {n : Nat} {s : State} (h : noLineFault (n + 1) s) :
    lineFault Config.hasLineFault s = false := by
  have := h 0 (by omega)
  cases hl : s.lineFaults <;> simp_all [lineFault]

theorem lineFault_of_lineFaultAfter_zero {s : State} (h : lineFaultAfter 0 s) :
    lineFault Config.hasLineFault s = true := by
  have := h.2
  cases hl : s.lineFaults <;> simp_all [lineFault, Config.hasLineFault]

/-! ## LineWrite -/

/-- The state after a line write that succeeded. -/
def lineWritten (ls : LineState) (s : State) : State :=
  { s with
    rts := lineRts ls
    dtr := lineDtr ls
    lineFaults := s.lineFaults.tail
    trace := s.trace ++ [.wrote ls]
    wireKnown := true }

/-- The state after a line write that failed. -/
def lineFailed (ls : LineState) (s : State) : State :=
  { s with
    rts := lineRts ls
    dtr := lineDtr ls
    lineFaults := s.lineFaults.tail
    trace := s.trace ++ [.failed ls]
    wireKnown := false
    wireDraws := s.wireDraws + 1
    err := .errLineWrite
    rsp := some .errLineWrite
    responses := s.responses ++ [⟨s.now, .errLineWrite⟩]
    phase := .idle
    dwell := 0#20 }

theorem lineWrite_succeeds {ls : LineState} {k : State → State} {s : State}
    (h : lineFault Config.hasLineFault s = false) : lineWrite ls k s = k (lineWritten ls s) := by
  simp only [lineWrite, h]; rfl

theorem lineWrite_fails {ls : LineState} {k : State → State} {s : State}
    (h : lineFault Config.hasLineFault s = true) : lineWrite ls k s = lineFailed ls s := by
  simp only [lineWrite, h]; rfl

/-- Everything a line write can do. -/
theorem lineWrite_cases (ls : LineState) (k : State → State) (s : State) :
    (lineFault Config.hasLineFault s = false ∧ lineWrite ls k s = k (lineWritten ls s))
    ∨ (lineFault Config.hasLineFault s = true ∧ lineWrite ls k s = lineFailed ls s) := by
  cases h : lineFault Config.hasLineFault s
  · exact .inl ⟨rfl, lineWrite_succeeds h⟩
  · exact .inr ⟨rfl, lineWrite_fails h⟩

@[simp] theorem lineOfLevels_of_line (ls : LineState) : lineOfLevels (lineRts ls) (lineDtr ls) = ls := by
  cases ls <;> rfl

@[simp] theorem lineWritten_lines (ls : LineState) (s : State) : (lineWritten ls s).lines = ls :=
  lineOfLevels_of_line ls

@[simp] theorem lineFailed_lines (ls : LineState) (s : State) : (lineFailed ls s).lines = ls :=
  lineOfLevels_of_line ls

/-! ## Encode -/

theorem encodeMessage_invalid {t : Tables} {house device command : Nat}
    (h : ¬ validOperands house device command) : encodeMessage t house device command = none :=
  if_neg h

theorem encodeMessage_valid {t : Tables} {house device command : Nat} (h : validOperands house device command) :
    encodeMessage t house device command
      = some (frameMessage (composeData t (tableReads house device command))) :=
  if_pos h

/-- The data of valid operands is the OR of two or three patterns. -/
theorem composeData_tableReads (t : Tables) (h d : Fin 16) (c : Fin 8) :
    composeData t (tableReads h.val (d.val + 1) c.val)
      = t.house[h] ||| (if c.val = 0 ∨ c.val = 1 then t.device[d] else 0#16) ||| t.cmd[c] := by
  have hv : validOperands h.val (d.val + 1) c.val := ⟨by omega, by omega, by omega, by omega⟩
  unfold tableReads
  rw [dif_pos hv]
  by_cases hc : c.val = 0 ∨ c.val = 1
  · rw [if_pos hc, if_pos hc]; simp [composeData, tableRead]
  · rw [if_neg hc, if_neg hc]; simp [composeData, tableRead]

/-- The framed data, as one number. -/
theorem frameMessage_eq_messageOf (data : Pattern) : frameMessage data = messageOf data := by
  unfold frameMessage messageOf Config.hdr0 Config.hdr1 Config.ftr
  ext i hi
  simp only [BitVec.getElem_append, BitVec.getElem_or, BitVec.getElem_shiftLeft]
  rcases (by omega : i < 8 ∨ (8 ≤ i ∧ i < 16) ∨ (16 ≤ i ∧ i < 24) ∨ 24 ≤ i) with h | h | h | h
  all_goals interval_cases i <;> simp

/-- `Encode` on valid operands, in one equation. -/
theorem encodeMessage_eq (t : Tables) (h d : Fin 16) (c : Fin 8) :
    encodeMessage t h.val (d.val + 1) c.val
      = some (messageOf (t.house[h] ||| (if c.val = 0 ∨ c.val = 1 then t.device[d] else 0#16) ||| t.cmd[c])) := by
  rw [encodeMessage_valid ⟨by omega, by omega, by omega, by omega⟩, frameMessage_eq_messageOf,
    composeData_tableReads]

/-- The five bytes of five bytes put together. -/
theorem extract_append (a b c d e : Byte) :
    let m : BitVec (8 + 8 + 8 + 8 + 8) := a ++ b ++ c ++ d ++ e
    m.extractLsb' 32 8 = a ∧ m.extractLsb' 24 8 = b ∧ m.extractLsb' 16 8 = c
    ∧ m.extractLsb' 8 8 = d ∧ m.extractLsb' 0 8 = e := by
  refine ⟨?_, ?_, ?_, ?_, ?_⟩ <;>
    (ext i hi; simp only [BitVec.getElem_extractLsb', BitVec.getLsbD_append]
     interval_cases i <;> simp [BitVec.getLsbD_eq_getElem])

theorem msgByte_append (a b c d e : Byte) :
    msgByte (a ++ b ++ c ++ d ++ e : BitVec 40) 0 = a ∧ msgByte (a ++ b ++ c ++ d ++ e : BitVec 40) 1 = b
    ∧ msgByte (a ++ b ++ c ++ d ++ e : BitVec 40) 2 = c ∧ msgByte (a ++ b ++ c ++ d ++ e : BitVec 40) 3 = d
    ∧ msgByte (a ++ b ++ c ++ d ++ e : BitVec 40) 4 = e :=
  extract_append a b c d e

/-- The header and footer of every composed message. -/
theorem msgFramed_messageOf (data : Pattern) : msgFramed (messageOf data) = true := by
  rw [← frameMessage_eq_messageOf]
  obtain ⟨h0, h1, -, -, h4⟩ :=
    msgByte_append Config.hdr0 Config.hdr1 (data.extractLsb' 8 8) (data.extractLsb' 0 8) Config.ftr
  simp [msgFramed, frameMessage, h0, h1, h4]

theorem msgFramed_of_encodeMessage {t : Tables} {house device command : Nat} {m : Message}
    (h : encodeMessage t house device command = some m) : msgFramed m = true := by
  unfold encodeMessage at h
  split at h
  · obtain rfl := Option.some.inj h
    rw [frameMessage_eq_messageOf]; exact msgFramed_messageOf _
  · exact absurd h (by simp)

/-! ## SEND and INIT -/

@[simp] theorem whenIdle_of_idle {s a : State} (h : s.phase = .idle) : whenIdle s a = a := if_pos h

@[simp] theorem whenIdle_of_busy {s a : State} (h : s.phase ≠ .idle) : whenIdle s a = s := if_neg h

/-- Everything SEND can do: wait, or raise one of its two errors, or store a framed message and start. -/
theorem send_cases (t : Tables) (c : Command) (house : BitVec 4) (device : BitVec 5) (s : State) :
    (s.phase ≠ .idle ∧ send t c house device s = s)
    ∨ (s.phase = .idle ∧ (device.toNat = 0 ∨ 16 < device.toNat)
        ∧ send t c house device s = raiseError .errInvalidArgument s)
    ∨ (s.phase = .idle ∧ 1 ≤ device.toNat ∧ device.toNat ≤ 16 ∧ s.initialized = false
        ∧ send t c house device s = raiseError .errNotInitialized s)
    ∨ (s.phase = .idle ∧ 1 ≤ device.toNat ∧ device.toNat ≤ 16 ∧ s.initialized = true
        ∧ ∃ m, encodeMessage t house.toNat device.toNat (commandIndex c) = some m ∧ msgFramed m = true
          ∧ send t c house device s = startTransmit { s with msg := m }) := by
  by_cases hb : s.phase = .idle
  · right
    have hh : house.toNat ≤ 15 := by have := house.isLt; omega
    have hc : commandIndex c ≤ 7 := by cases c <;> decide
    by_cases hd : 1 ≤ device.toNat ∧ device.toNat ≤ 16
    · right
      have hv : validOperands house.toNat device.toNat (commandIndex c) := ⟨hh, hd.1, hd.2, hc⟩
      have he := encodeMessage_valid (t := t) hv
      cases hi : s.initialized
      · exact .inl ⟨hb, hd.1, hd.2, rfl, by simp [send, whenIdle, hb, he, hi]⟩
      · exact .inr ⟨hb, hd.1, hd.2, rfl, _, he, msgFramed_of_encodeMessage he, by
          simp [send, whenIdle, hb, he, hi]⟩
    · left
      have he := encodeMessage_invalid (t := t) (house := house.toNat) (command := commandIndex c)
        (device := device.toNat) (fun h => hd ⟨h.2.1, h.2.2.1⟩)
      exact ⟨hb, by omega, by simp [send, whenIdle, hb, he]⟩
  · exact .inl ⟨hb, by simp [send, whenIdle, hb]⟩

/-- Every command of SEND is the shared accepting step. -/
theorem exec_sendInstr (c : Command) (house : BitVec 4) (device : BitVec 5) (s : State) :
    exec (sendInstr c house device) s = .next (send lut c house device s) := by
  cases c <;> rfl

/-- Everything INIT can do: wait, or raise its error, or configure and complete. -/
theorem execInit_cases (p q : Pin) (d : Delay) (s : State) :
    (s.phase ≠ .idle ∧ exec (.init p q d) s = .next s)
    ∨ (s.phase = .idle ∧ d.toNat < 500 ∧ exec (.init p q d) s = .next (raiseError .errInvalidArgument s))
    ∨ (s.phase = .idle ∧ 500 ≤ d.toNat
        ∧ exec (.init p q d) s = .next (complete .errNone (enableLines (configure p q d s)))) := by
  by_cases hb : s.phase = .idle
  · by_cases hd : 500 ≤ d.toNat
    · exact .inr (.inr ⟨hb, hd, by simp [exec, execInit, whenIdle, hb, bitDelayAccepted, Config.tBitMin, hd]⟩)
    · exact .inr (.inl ⟨hb, by omega, by
        simp [exec, execInit, whenIdle, hb, bitDelayAccepted, Config.tBitMin, hd]⟩)
  · exact .inl ⟨hb, by simp [exec, execInit, whenIdle, hb]⟩

/-- Every instruction is INIT or a command of SEND. -/
theorem instr_cases (i : Instr) :
    (∃ c house device, i = sendInstr c house device) ∨ ∃ p q d, i = .init p q d := by
  cases i with
  | on h d => exact .inl ⟨.on, h, d, rfl⟩
  | off h d => exact .inl ⟨.off, h, d, rfl⟩
  | bright h d => exact .inl ⟨.bright, h, d, rfl⟩
  | dim h d => exact .inl ⟨.dim, h, d, rfl⟩
  | allOff h d => exact .inl ⟨.allOff, h, d, rfl⟩
  | allOn h d => exact .inl ⟨.allOn, h, d, rfl⟩
  | lampsOff h d => exact .inl ⟨.lampsOff, h, d, rfl⟩
  | lampsOn h d => exact .inl ⟨.lampsOn, h, d, rfl⟩
  | init p q d => exact .inr ⟨p, q, d, rfl⟩

/-! ## The end of a dwell -/

theorem endOfDwell_idle {s : State} (h : s.phase = .idle) : endOfDwell s = .next s := by
  simp [endOfDwell, h]

theorem endOfDwell_reset {s : State} (h : s.phase = .reset) : endOfDwell s = .next (endReset s) := by
  simp [endOfDwell, h]

theorem endOfDwell_settle {s : State} (h : s.phase = .settle) : endOfDwell s = .next (endSettle s) := by
  simp [endOfDwell, h]

theorem endOfDwell_data {s : State} (h : s.phase = .data) (hi : s.bitIdx.toNat ≤ 39) :
    endOfDwell s = .next (endData s) := by
  simp [endOfDwell, h, hi]

theorem endOfDwell_gap {s : State} (h : s.phase = .gap) (hi : s.bitIdx.toNat < 39) :
    endOfDwell s = .next (nextCell s) := by
  simp [endOfDwell, h, hi]

theorem endOfDwell_lastGap {s : State} (h : s.phase = .gap) (hi : s.bitIdx.toNat = 39) :
    endOfDwell s = .next (lastCell s) := by
  simp [endOfDwell, h, hi]

theorem endOfDwell_quiet {s : State} (h : s.phase = .quiet) : endOfDwell s = .next (endQuiet s) := by
  simp [endOfDwell, h]

theorem endOfDwell_stuck {s : State} (h : s.phase = .data ∨ s.phase = .gap) (hi : 39 < s.bitIdx.toNat) :
    endOfDwell s = .fault .bitIdxOutOfRange := by
  rcases h with h | h
  · simp [endOfDwell, h, show ¬ s.bitIdx.toNat ≤ 39 by omega]
  · simp [endOfDwell, h, show ¬ s.bitIdx.toNat < 39 by omega, show s.bitIdx.toNat ≠ 39 by omega]

/-- Everything the end of a dwell can do while busy. -/
theorem endOfDwell_cases {s t : State} (hb : s.phase ≠ .idle) (h : endOfDwell s = .next t) :
    (s.phase = .reset ∧ t = endReset s) ∨ (s.phase = .settle ∧ t = endSettle s)
    ∨ (s.phase = .data ∧ s.bitIdx.toNat ≤ 39 ∧ t = endData s)
    ∨ (s.phase = .gap ∧ s.bitIdx.toNat < 39 ∧ t = nextCell s)
    ∨ (s.phase = .gap ∧ s.bitIdx.toNat = 39 ∧ t = lastCell s)
    ∨ (s.phase = .quiet ∧ t = endQuiet s) := by
  unfold endOfDwell at h
  cases hp : s.phase <;> simp only [hp] at h hb
  · exact absurd rfl hb
  · simp_all
  · simp_all
  · split at h <;> simp_all
  · split at h
    · simp_all
    · split at h <;> simp_all
  · simp_all

end Sys2Proof.Machine
end

