-- ==== Sys2Proof/Laws/Codec.lean ====
section
/-! SUPPORT. The words of the two channels, field by field, and numbers as bytes. -/

namespace Sys2Proof

/-! ## The fields of a word -/

theorem commandOfField_commandField (c : Command) : commandOfField (commandField c) = c := by cases c <;> rfl

/-- The three fields of a word put together from them. -/
theorem extract_send_fields (h : BitVec 4) (d : BitVec 5) (c : BitVec 3) :
    let w : BitVec (4 + 5 + 3) := h ++ d ++ c
    w.extractLsb' 0 3 = c ∧ w.extractLsb' 3 5 = d ∧ w.extractLsb' 8 4 = h := by
  refine ⟨?_, ?_, ?_⟩ <;>
    (ext i hi; simp only [BitVec.getElem_extractLsb', BitVec.getLsbD_append]
     interval_cases i <;> simp [BitVec.getLsbD_eq_getElem])

/-- The fields of a `CW12`. -/
theorem cmdWord_fields (c : Command) (h : BitVec 4) (d : BitVec 5) :
    (cmdWord c h d).extractLsb' 0 3 = commandField c ∧ (cmdWord c h d).extractLsb' 3 5 = d
    ∧ (cmdWord c h d).extractLsb' 8 4 = h :=
  extract_send_fields h d (commandField c)

/-- The fields of an `IW36`. -/
theorem initWord_fields (p q : Pin) (d : Delay) :
    (initWord p q d).extractLsb' 0 20 = d ∧ (initWord p q d).extractLsb' 20 8 = q
    ∧ (initWord p q d).extractLsb' 28 8 = p := by
  have h : let w : BitVec (8 + 8 + 20) := p ++ q ++ d
      w.extractLsb' 0 20 = d ∧ w.extractLsb' 20 8 = q ∧ w.extractLsb' 28 8 = p := by
    refine ⟨?_, ?_, ?_⟩ <;>
      (ext i hi; simp only [BitVec.getElem_extractLsb', BitVec.getLsbD_append]
       interval_cases i <;> simp [BitVec.getLsbD_eq_getElem])
  exact h

theorem commandField_commandOfField (b : BitVec 3) : commandField (commandOfField b) = b := by revert b; decide

/-- A `CW12` is put together from its own fields. -/
theorem cmdWord_of_fields (w : CmdWord) :
    cmdWord (commandOfField (w.extractLsb' 0 3)) (w.extractLsb' 8 4) (w.extractLsb' 3 5) = w := by
  rw [cmdWord, commandField_commandOfField]
  ext i hi
  simp only [BitVec.getElem_append, BitVec.getElem_extractLsb']
  interval_cases i <;> simp [BitVec.getLsbD_eq_getElem]

/-- An `IW36` is put together from its own fields. -/
theorem initWord_of_fields (w : InitWord) :
    initWord (w.extractLsb' 28 8) (w.extractLsb' 20 8) (w.extractLsb' 0 20) = w := by
  rw [initWord]
  ext i hi
  simp only [BitVec.getElem_append, BitVec.getElem_extractLsb']
  interval_cases i <;> simp [BitVec.getLsbD_eq_getElem]

/-- The command field, as the opcode table masks it. -/
theorem cmdWord_and_seven (c : Command) (h : BitVec 4) (d : BitVec 5) :
    (cmdWord c h d).toNat &&& 0x007 = (commandField c).toNat := by
  have hf := congrArg BitVec.toNat (cmdWord_fields c h d).1
  rw [BitVec.extractLsb'_toNat, Nat.shiftRight_zero] at hf
  rw [← hf]
  exact Nat.and_two_pow_sub_one_eq_mod _ 3

theorem encode_sendInstr (c : Command) (h : BitVec 4) (d : BitVec 5) :
    encode (sendInstr c h d) = .cmd (cmdWord c h d) := by
  cases c <;> rfl

/-! ## Bytes -/

@[simp] theorem bytesOfNat_length (n w : Nat) : (bytesOfNat n w).length = n := by
  induction n generalizing w with
  | zero => rfl
  | succ n ih => simp [bytesOfNat, ih]

theorem natOfBytes_bytesOfNat {n w : Nat} (h : w < 256 ^ n) : natOfBytes (bytesOfNat n w) = w := by
  induction n generalizing w with
  | zero => simp at h; subst h; rfl
  | succ n ih =>
    rw [bytesOfNat, natOfBytes, ih (by rw [pow_succ] at h; omega)]
    simp; omega

/-- Two bytes of a number that fits a `CW12`. -/
theorem decodeBytes_cmd {w : Nat} (h : w < 2 ^ 12) :
    decodeBytes (bytesOfNat 2 w) = .ok (decodeCmd (BitVec.ofNat 12 w)) := by
  simp only [decodeBytes, bytesOfNat_length, natOfBytes_bytesOfNat (n := 2) (w := w) (by omega)]
  rw [if_pos trivial, if_pos h]; rfl

/-- Five bytes of a number that fits an `IW36`. -/
theorem decodeBytes_init {w : Nat} (h : w < 2 ^ 36) :
    decodeBytes (bytesOfNat 5 w) = .ok (decodeInit (BitVec.ofNat 36 w)) := by
  simp only [decodeBytes, bytesOfNat_length, natOfBytes_bytesOfNat (n := 5) (w := w) (by omega)]
  rw [if_neg (by omega), if_pos trivial, if_pos h]; rfl

end Sys2Proof
end

