-- ==== Sys2Proof/Laws/PerInstr.lean ====
section
/-! SUPPORT. What holds of every instruction as syntax, one lemma per constructor. -/

/-- The word of an instruction agrees with its row of the opcode table and fits the row's width. -/
def Sys2Proof.Laws.MatchesTableRow.Statement (i : Sys2Proof.Instr) : Prop :=
  Sys2Proof.portBits (Sys2Proof.encode i) &&& (Sys2Proof.opcodeRow i).mask = (Sys2Proof.opcodeRow i).pattern
    ∧ Sys2Proof.portBits (Sys2Proof.encode i) < 2 ^ (Sys2Proof.opcodeRow i).width

namespace Sys2Proof.Laws.MatchesTableRow

theorem on (house : BitVec 4) (device : BitVec 5) : Statement (.on house device) :=
  ⟨cmdWord_and_seven .on house device, (cmdWord .on house device).isLt⟩

theorem off (house : BitVec 4) (device : BitVec 5) : Statement (.off house device) :=
  ⟨cmdWord_and_seven .off house device, (cmdWord .off house device).isLt⟩

theorem bright (house : BitVec 4) (device : BitVec 5) : Statement (.bright house device) :=
  ⟨cmdWord_and_seven .bright house device, (cmdWord .bright house device).isLt⟩

theorem dim (house : BitVec 4) (device : BitVec 5) : Statement (.dim house device) :=
  ⟨cmdWord_and_seven .dim house device, (cmdWord .dim house device).isLt⟩

theorem allOff (house : BitVec 4) (device : BitVec 5) : Statement (.allOff house device) :=
  ⟨cmdWord_and_seven .allOff house device, (cmdWord .allOff house device).isLt⟩

theorem allOn (house : BitVec 4) (device : BitVec 5) : Statement (.allOn house device) :=
  ⟨cmdWord_and_seven .allOn house device, (cmdWord .allOn house device).isLt⟩

theorem lampsOff (house : BitVec 4) (device : BitVec 5) : Statement (.lampsOff house device) :=
  ⟨cmdWord_and_seven .lampsOff house device, (cmdWord .lampsOff house device).isLt⟩

theorem lampsOn (house : BitVec 4) (device : BitVec 5) : Statement (.lampsOn house device) :=
  ⟨cmdWord_and_seven .lampsOn house device, (cmdWord .lampsOn house device).isLt⟩

theorem init (rtsPin dtrPin : Pin) (bitDelay : Delay) : Statement (.init rtsPin dtrPin bitDelay) :=
  ⟨Nat.and_zero _, (initWord rtsPin dtrPin bitDelay).isLt⟩

end Sys2Proof.Laws.MatchesTableRow
end

