-- ==== Sys2Proof/Laws/Step.lean ====
section
/-! SUPPORT. Everything a step can do, said once: the inversion of `step`, which the proofs about every step cite. -/

namespace Sys2Proof.Machine

/-! ## Runs -/

/-- A run begins with its first step. -/
theorem run_cons {M : Host.Core} {n : Nat} {s t : M.State} (h : M.step s = .next t) : M.run (n + 1) s = M.run n t := by
  simp only [Host.Core.run, h]

/-- A run ends with its last step. -/
theorem run_snoc {M : Host.Core} {n : Nat} {s t : M.State} (h : M.run n s = .next t) : M.run (n + 1) s = M.step t := by
  induction n generalizing s with
  | zero =>
    simp only [Host.Core.run] at h ⊢
    obtain rfl := Host.Outcome.next.inj h
    cases M.step s <;> rfl
  | succ n ih =>
    cases hs : M.step s with
    | next u => rw [run_cons hs] at h ⊢; exact ih h
    | fault r => simp only [Host.Core.run, hs] at h; cases h
    | refused r => simp only [Host.Core.run, hs] at h; cases h

/-- The machine's own run begins with a step. -/
theorem core_run_cons {n : Nat} {s t : State} (h : step s = .next t) :
    Sys2Proof.core.run (n + 1) s = Sys2Proof.core.run n t :=
  run_cons (M := Sys2Proof.core) h

/-- The machine's own run ends with a step. -/
theorem core_run_snoc {n : Nat} {s t : State} (h : Sys2Proof.core.run n s = .next t) :
    Sys2Proof.core.run (n + 1) s = step t :=
  run_snoc (M := Sys2Proof.core) h

theorem clockRun_cons {f n : Nat} {s t : State} (h : clockStep f s = .next t) : clockRun f (n + 1) s = clockRun f n t := by
  simp only [clockRun, h]

theorem clockRun_snoc {f n : Nat} {s t : State} (h : clockRun f n s = .next t) : clockRun f (n + 1) s = clockStep f t := by
  induction n generalizing s with
  | zero =>
    obtain rfl := Host.Outcome.next.inj h
    simp only [clockRun]
    cases clockStep f s <;> rfl
  | succ n ih =>
    cases hs : clockStep f s with
    | next u => rw [clockRun_cons hs] at h ⊢; exact ih h
    | fault r => simp only [clockRun, hs] at h; cases h
    | refused r => simp only [clockRun, hs] at h; cases h

theorem clockRun_append {f m n : Nat} {s t : State} (h : clockRun f m s = .next t) :
    clockRun f (m + n) s = clockRun f n t := by
  induction m generalizing s with
  | zero => obtain rfl := Host.Outcome.next.inj h; rw [Nat.zero_add]
  | succ m ih =>
    rw [show m + 1 + n = m + n + 1 by omega]
    cases hs : clockStep f s with
    | next u => rw [clockRun_cons hs] at h ⊢; exact ih h
    | fault r => simp only [clockRun, hs] at h; cases h
    | refused r => simp only [clockRun, hs] at h; cases h

/-! ## Accepting an offer -/

theorem acceptOffer_init {s : State} {w : InitWord} (h : s.initPort = some w) :
    acceptOffer s = exec (decodeInit w) { s with initPort := none } := by
  simp [acceptOffer, h, decode]

theorem acceptOffer_cmd {s : State} {c : CmdWord} (hi : s.initPort = none) (h : s.cmdPort = some c) :
    acceptOffer s = exec (decodeCmd c) { s with cmdPort := none } := by
  simp [acceptOffer, hi, h, decode]

theorem acceptOffer_none {s : State} (hi : s.initPort = none) (hc : s.cmdPort = none) : acceptOffer s = .next s := by
  simp [acceptOffer, hi, hc]

/-! ## Which of its three a step is -/

theorem step_of_reset {s : State} (h : rstAsserted s = true) : step s = .next (hardwareReset (beginStep s)) := by
  simp [step, h]

theorem step_of_idle {s : State} (h : rstAsserted s = false) (hp : s.phase = .idle) :
    step s = acceptOffer (beginStep s) := by
  simp [step, h, hp]

theorem step_of_busy {s : State} (h : rstAsserted s = false) (hp : s.phase ≠ .idle) :
    step s = runPhase (beginStep s) := by
  simp [step, h, hp]

/-! ## The host's side of a step -/

/-- `s` at the beginning of a step without reset, with `a`, `b` and `p` the host's side of it. -/
@[simps] def hostStep (s : State) (a : Option InitWord) (b : Option CmdWord) (p : List HostLine) : State :=
  { s with rsp := none, rstInputs := s.rstInputs.tail, initPort := a, cmdPort := b, program := p }

/-- The state whose phase ends in a busy step: the dwell has passed. -/
@[simps] def phaseOver (s : State) (a : Option InitWord) (b : Option CmdWord) (p : List HostLine) : State :=
  { s with
    now := s.now + s.dwell.toNat, rsp := none, rstInputs := s.rstInputs.tail, initPort := a, cmdPort := b, program := p }

/-- The state whose phase ends, with the offers the step begins with. -/
abbrev phaseOverNow (s : State) : State :=
  phaseOver s (loadPorts s).initPort (loadPorts s).cmdPort (loadPorts s).program

theorem step_busy_eq {s : State} (h : rstAsserted s = false) (hp : s.phase ≠ .idle) :
    step s = endOfDwell (phaseOverNow s) := by
  rw [step_of_busy h hp, beginStep_eq s]; rfl

/-- Beginning a step twice, with no reset samples left, is beginning it once. -/
theorem beginStep_beginStep {s : State} (h : s.rstInputs = []) : beginStep (beginStep s) = beginStep s := by
  have hl : loadPorts (beginStep s) = { loadPorts s with rsp := none, rstInputs := s.rstInputs.tail } := by
    by_cases hw : (loadPorts s).initPort = none ∧ (loadPorts s).cmdPort = none
    · have hp : (loadPorts s).program = [] := by
        by_cases hw' : s.initPort = none ∧ s.cmdPort = none
        · cases hp : s.program with
          | nil => rw [loadPorts_of_empty hp, hp]
          | cons l rest => cases l <;> simp [loadPorts, hw', hp] at hw
        · rw [loadPorts_of_waiting (by simpa [or_iff_not_imp_left] using hw')] at hw
          exact absurd hw hw'
      rw [loadPorts_of_empty (by simpa using hp)]; rfl
    · rw [loadPorts_of_waiting (by simpa [or_iff_not_imp_left] using hw)]; rfl
  rw [beginStep, hl, beginStep]
  simp [h]

/-! ## One equation per phase -/

theorem step_reset {s : State} (h : rstAsserted s = false) (hp : s.phase = .reset) :
    step s = .next (endReset (phaseOverNow s)) := by
  rw [step_busy_eq h (by rw [hp]; decide), endOfDwell_reset (s := phaseOverNow s) hp]

theorem step_settle {s : State} (h : rstAsserted s = false) (hp : s.phase = .settle) :
    step s = .next (endSettle (phaseOverNow s)) := by
  rw [step_busy_eq h (by rw [hp]; decide), endOfDwell_settle (s := phaseOverNow s) hp]

theorem step_data {s : State} (h : rstAsserted s = false) (hp : s.phase = .data) (hi : s.bitIdx.toNat ≤ 39) :
    step s = .next (endData (phaseOverNow s)) := by
  rw [step_busy_eq h (by rw [hp]; decide), endOfDwell_data (s := phaseOverNow s) hp hi]

theorem step_gap {s : State} (h : rstAsserted s = false) (hp : s.phase = .gap) (hi : s.bitIdx.toNat < 39) :
    step s = .next (nextCell (phaseOverNow s)) := by
  rw [step_busy_eq h (by rw [hp]; decide), endOfDwell_gap (s := phaseOverNow s) hp hi]

theorem step_lastGap {s : State} (h : rstAsserted s = false) (hp : s.phase = .gap) (hi : s.bitIdx.toNat = 39) :
    step s = .next (lastCell (phaseOverNow s)) := by
  rw [step_busy_eq h (by rw [hp]; decide), endOfDwell_lastGap (s := phaseOverNow s) hp hi]

theorem step_quiet {s : State} (h : rstAsserted s = false) (hp : s.phase = .quiet) :
    step s = .next (endQuiet (phaseOverNow s)) := by
  rw [step_busy_eq h (by rw [hp]; decide), endOfDwell_quiet (s := phaseOverNow s) hp]

/-! ## Inversion -/

/-- `s` at the beginning of a step that accepts the offered INIT. -/
abbrev initTaken (s : State) : State := hostStep s none (loadPorts s).cmdPort (loadPorts s).program

/-- `s` at the beginning of a step that accepts the offered SEND, or nothing. -/
abbrev sendTaken (s : State) : State := hostStep s none none (loadPorts s).program

/-- Everything a step that answers `t` can have done. -/
inductive StepCase (s t : State) : Prop where
  | reset (hr : rstAsserted s = true) (ht : t = hardwareReset (beginStep s))
  | nothing (hr : rstAsserted s = false) (hp : s.phase = .idle) (hi : (loadPorts s).initPort = none)
      (hc : (loadPorts s).cmdPort = none) (ht : t = sendTaken s)
  | initRefused (hr : rstAsserted s = false) (hp : s.phase = .idle) (pin qin : Pin) (d : Delay)
      (ha : acceptsInit s pin qin d) (hd : d.toNat < 500) (ht : t = raiseError .errInvalidArgument (initTaken s))
  | initDone (hr : rstAsserted s = false) (hp : s.phase = .idle) (pin qin : Pin) (d : Delay)
      (ha : acceptsInit s pin qin d) (hd : 500 ≤ d.toNat)
      (ht : t = complete .errNone (enableLines (configure pin qin d (initTaken s))))
  | sendIllegal (hr : rstAsserted s = false) (hp : s.phase = .idle) (c : Command) (house : BitVec 4)
      (device : BitVec 5) (ha : acceptsSend s c house device) (hd : device.toNat = 0 ∨ 16 < device.toNat)
      (ht : t = raiseError .errInvalidArgument (sendTaken s))
  | sendEarly (hr : rstAsserted s = false) (hp : s.phase = .idle) (c : Command) (house : BitVec 4)
      (device : BitVec 5) (ha : acceptsSend s c house device) (hd : 1 ≤ device.toNat ∧ device.toNat ≤ 16)
      (hi : s.initialized = false) (ht : t = raiseError .errNotInitialized (sendTaken s))
  | sendStarts (hr : rstAsserted s = false) (hp : s.phase = .idle) (c : Command) (house : BitVec 4)
      (device : BitVec 5) (ha : acceptsSend s c house device) (hd : 1 ≤ device.toNat ∧ device.toNat ≤ 16)
      (hi : s.initialized = true) (m : Message) (hm : msgFramed m = true)
      (ht : t = startTransmit { sendTaken s with msg := m })
  | resetEnds (hr : rstAsserted s = false) (hp : s.phase = .reset) (ht : t = endReset (phaseOverNow s))
  | settleEnds (hr : rstAsserted s = false) (hp : s.phase = .settle) (ht : t = endSettle (phaseOverNow s))
  | dataEnds (hr : rstAsserted s = false) (hp : s.phase = .data) (hi : s.bitIdx.toNat ≤ 39)
      (ht : t = endData (phaseOverNow s))
  | gapEnds (hr : rstAsserted s = false) (hp : s.phase = .gap) (hi : s.bitIdx.toNat < 39)
      (ht : t = nextCell (phaseOverNow s))
  | lastGapEnds (hr : rstAsserted s = false) (hp : s.phase = .gap) (hi : s.bitIdx.toNat = 39)
      (ht : t = lastCell (phaseOverNow s))
  | quietEnds (hr : rstAsserted s = false) (hp : s.phase = .quiet) (ht : t = endQuiet (phaseOverNow s))

theorem beginStep_eq_hostStep (s : State) :
    beginStep s = hostStep s (loadPorts s).initPort (loadPorts s).cmdPort (loadPorts s).program :=
  beginStep_eq s

/-- The words of the CMD channel decode to commands of SEND. -/
theorem decodeCmd_eq (w : CmdWord) :
    decodeCmd w = sendInstr (commandOfField (w.extractLsb' 0 3)) (w.extractLsb' 8 4) (w.extractLsb' 3 5) := rfl

theorem exec_idle_cases {i : Instr} {s t : State} (hp : s.phase = .idle) (h : exec i s = .next t) :
    (∃ p q d, i = .init p q d ∧ d.toNat < 500 ∧ t = raiseError .errInvalidArgument s)
    ∨ (∃ p q d, i = .init p q d ∧ 500 ≤ d.toNat ∧ t = complete .errNone (enableLines (configure p q d s)))
    ∨ (∃ c house device, i = sendInstr c house device ∧ (device.toNat = 0 ∨ 16 < device.toNat)
        ∧ t = raiseError .errInvalidArgument s)
    ∨ (∃ c house device, i = sendInstr c house device ∧ (1 ≤ device.toNat ∧ device.toNat ≤ 16)
        ∧ s.initialized = false ∧ t = raiseError .errNotInitialized s)
    ∨ (∃ c house device, i = sendInstr c house device ∧ (1 ≤ device.toNat ∧ device.toNat ≤ 16)
        ∧ s.initialized = true ∧ ∃ m, msgFramed m = true ∧ t = startTransmit { s with msg := m }) := by
  rcases instr_cases i with ⟨c, house, device, rfl⟩ | ⟨p, q, d, rfl⟩
  · rw [exec_sendInstr] at h
    obtain rfl := Host.Outcome.next.inj h
    rcases send_cases lut c house device s with ⟨hb, -⟩ | ⟨-, hd, he⟩ | ⟨-, h1, h2, hi, he⟩ | ⟨-, h1, h2, hi, m, -, hm, he⟩
    · exact absurd hp hb
    · exact .inr (.inr (.inl ⟨c, house, device, rfl, hd, he⟩))
    · exact .inr (.inr (.inr (.inl ⟨c, house, device, rfl, ⟨h1, h2⟩, hi, he⟩)))
    · exact .inr (.inr (.inr (.inr ⟨c, house, device, rfl, ⟨h1, h2⟩, hi, m, hm, he⟩)))
  · rcases execInit_cases p q d s with ⟨hb, -⟩ | ⟨-, hd, he⟩ | ⟨-, hd, he⟩
    · exact absurd hp hb
    · rw [he] at h; exact .inl ⟨p, q, d, rfl, hd, (Host.Outcome.next.inj h).symm⟩
    · rw [he] at h; exact .inr (.inl ⟨p, q, d, rfl, hd, (Host.Outcome.next.inj h).symm⟩)

/-- With an INIT offered an idle step accepts it. -/
theorem acceptsInit_of_offer {s : State} {w : InitWord} (hr : rstAsserted s = false) (hp : s.phase = .idle)
    (hw : (loadPorts s).initPort = some w) :
    acceptsInit s (w.extractLsb' 28 8) (w.extractLsb' 20 8) (w.extractLsb' 0 20) := by
  refine ⟨hr, hp, by rw [initWord_of_fields, hw], ?_⟩
  rw [step_of_idle hr hp, acceptOffer_init (s := beginStep s) hw, decodeInit]

/-- With a SEND offered and no INIT an idle step accepts it. -/
theorem acceptsSend_of_offer {s : State} {w : CmdWord} (hr : rstAsserted s = false) (hp : s.phase = .idle)
    (hi : (loadPorts s).initPort = none) (hw : (loadPorts s).cmdPort = some w) :
    acceptsSend s (commandOfField (w.extractLsb' 0 3)) (w.extractLsb' 8 4) (w.extractLsb' 3 5) := by
  refine ⟨hr, hp, hi, by rw [cmdWord_of_fields, hw], ?_⟩
  rw [step_of_idle hr hp, acceptOffer_cmd (s := beginStep s) hi hw, decodeCmd_eq]

theorem initTaken_eq (s : State) : { beginStep s with initPort := none } = initTaken s := by
  rw [beginStep_eq_hostStep]; rfl

theorem sendTaken_eq {s : State} (h : (loadPorts s).initPort = none) :
    { beginStep s with cmdPort := none } = sendTaken s := by
  rw [beginStep_eq_hostStep, h]; rfl

/-- An accepted INIT is one of its two cases. -/
theorem stepCase_of_acceptsInit {s t : State} {p q : Pin} {d : Delay} (ha : acceptsInit s p q d)
    (h : step s = .next t) : StepCase s t := by
  obtain ⟨hr, hp, -, hs⟩ := id ha
  rw [initTaken_eq, h] at hs
  rcases execInit_cases p q d (initTaken s) with ⟨hb, -⟩ | ⟨-, hd, he⟩ | ⟨-, hd, he⟩
  · exact absurd hp hb
  · exact .initRefused hr hp p q d ha hd (Host.Outcome.next.inj (hs.trans he))
  · exact .initDone hr hp p q d ha hd (Host.Outcome.next.inj (hs.trans he))

/-- An accepted SEND is one of its three cases. -/
theorem stepCase_of_acceptsSend {s t : State} {c : Command} {house : BitVec 4} {device : BitVec 5}
    (ha : acceptsSend s c house device) (h : step s = .next t) : StepCase s t := by
  obtain ⟨hr, hp, hi, -, hs⟩ := id ha
  rw [sendTaken_eq hi, h, exec_sendInstr] at hs
  rcases send_cases lut c house device (sendTaken s) with ⟨hb, -⟩ | ⟨-, hd, he⟩ | ⟨-, h1, h2, hi, he⟩ |
    ⟨-, h1, h2, hi, m, -, hm, he⟩
  · exact absurd hp hb
  · exact .sendIllegal hr hp c house device ha hd ((Host.Outcome.next.inj hs).trans he)
  · exact .sendEarly hr hp c house device ha ⟨h1, h2⟩ hi ((Host.Outcome.next.inj hs).trans he)
  · exact .sendStarts hr hp c house device ha ⟨h1, h2⟩ hi m hm ((Host.Outcome.next.inj hs).trans he)

/-- THE INVERSION OF A STEP. -/
theorem step_cases {s t : State} (h : step s = .next t) : StepCase s t := by
  cases hr : rstAsserted s
  · by_cases hp : s.phase = .idle
    · cases hi : (loadPorts s).initPort with
      | some w => exact stepCase_of_acceptsInit (acceptsInit_of_offer hr hp hi) h
      | none =>
        cases hc : (loadPorts s).cmdPort with
        | some w => exact stepCase_of_acceptsSend (acceptsSend_of_offer hr hp hi hc) h
        | none =>
          have hs := step_of_idle hr hp
          rw [acceptOffer_none (s := beginStep s) hi hc, beginStep_eq_hostStep, hi, hc] at hs
          exact .nothing hr hp hi hc (Host.Outcome.next.inj (h.symm.trans hs))
    · have he := (step_busy_eq hr hp).symm.trans h
      rcases endOfDwell_cases (s := phaseOverNow s) hp he with ⟨hq, ht⟩ | ⟨hq, ht⟩ | ⟨hq, hi, ht⟩ | ⟨hq, hi, ht⟩ |
        ⟨hq, hi, ht⟩ | ⟨hq, ht⟩
      · exact .resetEnds hr hq ht
      · exact .settleEnds hr hq ht
      · exact .dataEnds hr hq hi ht
      · exact .gapEnds hr hq hi ht
      · exact .lastGapEnds hr hq hi ht
      · exact .quietEnds hr hq ht
  · exact .reset hr (Host.Outcome.next.inj (h.symm.trans (step_of_reset hr)))

/-- The meaning of every instruction answers a next state. -/
theorem exec_total (i : Instr) (s : State) : ∃ t, exec i s = .next t := by
  cases i <;> exact ⟨_, rfl⟩

/-- Accepting what is offered answers a next state. -/
theorem acceptOffer_total (s : State) : ∃ t, acceptOffer s = .next t := by
  unfold acceptOffer
  split
  · exact exec_total _ _
  · exact exec_total _ _
  · exact ⟨_, rfl⟩

/-- The end of a dwell answers a next state where `bit_idx` is in range. -/
theorem endOfDwell_total {s : State} (h : s.bitIdx.toNat ≤ 39) : ∃ t, endOfDwell s = .next t := by
  unfold endOfDwell
  split
  · exact ⟨_, rfl⟩
  · exact ⟨_, rfl⟩
  · exact ⟨_, rfl⟩
  · rw [if_pos h]; exact ⟨_, rfl⟩
  · split
    · exact ⟨_, rfl⟩
    · rw [if_pos (by omega)]; exact ⟨_, rfl⟩
  · exact ⟨_, rfl⟩

end Sys2Proof.Machine
end

