-- ==== Sys2Proof/Laws/Run.lean ====
section
/-! SUPPORT. When a run is over (70_reset_and_hazards R187): the operations a run still owes, step by step. -/

namespace Sys2Proof.Machine

/-- What a run has answered and still owes: its completion pulses so far and its operations left. -/
def runTotal (s : State) : Nat := s.responses.length + operationsLeft s

/-- The operations waiting: on the channels and in the program. -/
def operationsWaiting (s : State) : Nat :=
  s.initPort.toList.length + s.cmdPort.toList.length + (s.program.map lineOperations).sum

theorem operationsLeft_of_idle {s : State} (h : s.phase = .idle) : operationsLeft s = operationsWaiting s := by
  simp [operationsLeft, operationsWaiting, h]

theorem operationsLeft_of_busy {s : State} (h : s.phase ≠ .idle) : operationsLeft s = operationsWaiting s + 1 := by
  simp [operationsLeft, operationsWaiting, h]

/-- With no operation left the sequencer is in IDLE. -/
theorem idle_of_operationsLeft {s : State} (h : operationsLeft s = 0) : s.phase = .idle := by
  by_contra hp; rw [operationsLeft_of_busy hp] at h; omega

/-- The host's next line moves from the program to the channels. -/
@[simp] theorem loadPorts_operationsWaiting (s : State) : operationsWaiting (loadPorts s) = operationsWaiting s := by
  unfold loadPorts
  split
  · rename_i h
    cases hp : s.program with
    | nil => rfl
    | cons l rest => cases l <;> simp +arith [operationsWaiting, h, hp, lineOperations]
  · rfl

@[simp] theorem beginStep_operationsWaiting (s : State) : operationsWaiting (beginStep s) = operationsWaiting s :=
  loadPorts_operationsWaiting s

@[simp] theorem phaseOverNow_operationsWaiting (s : State) : operationsWaiting (phaseOverNow s) = operationsWaiting s :=
  loadPorts_operationsWaiting s

/-- Accepting the offered INIT takes it off its channel. -/
theorem initTaken_operationsWaiting {s : State} {w : InitWord} (h : (loadPorts s).initPort = some w) :
    operationsWaiting (initTaken s) + 1 = operationsWaiting s := by
  rw [← loadPorts_operationsWaiting s]
  simp [operationsWaiting, initTaken, hostStep, h]; omega

/-- Accepting the offered SEND takes it off its channel. -/
theorem sendTaken_operationsWaiting {s : State} {w : CmdWord} (hi : (loadPorts s).initPort = none)
    (h : (loadPorts s).cmdPort = some w) : operationsWaiting (sendTaken s) + 1 = operationsWaiting s := by
  rw [← loadPorts_operationsWaiting s]
  simp [operationsWaiting, sendTaken, hostStep, hi, h]; omega

/-! ## What an operation still owes after each of the actions of a step -/

/-- A completion in IDLE is one pulse more. -/
theorem runTotal_complete {e : ErrCode} {s : State} (h : s.phase = .idle) :
    runTotal (complete e s) = s.responses.length + operationsWaiting s + 1 := by
  rw [runTotal, operationsLeft_of_idle (s := complete e s) h]
  simp [complete, operationsWaiting]; omega

theorem runTotal_raiseError (e : ErrCode) (s : State) :
    runTotal (raiseError e s) = s.responses.length + operationsWaiting s + 1 := by
  rw [runTotal, operationsLeft_of_idle (s := raiseError e s) rfl]
  simp [raiseError, complete, operationsWaiting]; omega

/-- A line write leads to a phase that still owes the pulse, or has produced it. -/
theorem runTotal_lineWrite {p : Phase} (hp : p ≠ .idle) (ls : LineState) (s : State) :
    runTotal (lineWrite ls (enterPhase p) s) = s.responses.length + operationsWaiting s + 1 := by
  rcases lineWrite_cases ls (enterPhase p) s with ⟨-, h⟩ | ⟨-, h⟩ <;> rw [h, runTotal]
  · rw [operationsLeft_of_busy (s := enterPhase p (lineWritten ls s)) hp]; rfl
  · rw [operationsLeft_of_idle (s := lineFailed ls s) rfl]
    simp [lineFailed, operationsWaiting]; omega

theorem runTotal_of_idle {s : State} (h : s.phase = .idle) : runTotal s = s.responses.length + operationsWaiting s := by
  rw [runTotal, operationsLeft_of_idle h]

theorem runTotal_of_busy {s : State} (h : s.phase ≠ .idle) :
    runTotal s = s.responses.length + operationsWaiting s + 1 := by
  rw [runTotal, operationsLeft_of_busy h]; rfl

/-! ## Steps -/

/-- A step without reset answers an operation or still owes it. -/
theorem step_runTotal {s t : State} (hr : rstAsserted s = false) (h : step s = .next t) : runTotal t = runTotal s := by
  have hw := phaseOverNow_operationsWaiting s
  have busy : ∀ {p : Phase}, s.phase = p → p ≠ .idle → runTotal s = s.responses.length + operationsWaiting s + 1 :=
    fun hp hne => runTotal_of_busy (hp ▸ hne)
  cases step_cases h with
  | reset hr' => rw [hr] at hr'; cases hr'
  | nothing _ hp hi hc ht =>
    rw [runTotal_of_idle hp, ht, runTotal_of_idle (s := sendTaken s) hp, ← loadPorts_operationsWaiting s]
    simp [sendTaken, hostStep, operationsWaiting, hi, hc]
  | initRefused _ hp _ _ _ ha _ ht =>
    have := initTaken_operationsWaiting ha.2.2.1
    rw [runTotal_of_idle hp, ht, runTotal_raiseError, show (initTaken s).responses = s.responses from rfl]; omega
  | initDone _ hp p q d ha _ ht =>
    have := initTaken_operationsWaiting ha.2.2.1
    rw [runTotal_of_idle hp, ht, runTotal_complete (by simpa using (show (initTaken s).phase = .idle from hp))]
    simp only [operationsWaiting, enableLines_initPort, enableLines_cmdPort, enableLines_program, enableLines_responses,
      configure_initPort, configure_cmdPort, configure_program, configure_responses] at *
    simp only [show (initTaken s).responses = s.responses from rfl]; omega
  | sendIllegal _ hp _ _ _ ha _ ht =>
    have := sendTaken_operationsWaiting ha.2.2.1 ha.2.2.2.1
    rw [runTotal_of_idle hp, ht, runTotal_raiseError, show (sendTaken s).responses = s.responses from rfl]; omega
  | sendEarly _ hp _ _ _ ha _ _ ht =>
    have := sendTaken_operationsWaiting ha.2.2.1 ha.2.2.2.1
    rw [runTotal_of_idle hp, ht, runTotal_raiseError, show (sendTaken s).responses = s.responses from rfl]; omega
  | sendStarts _ hp _ _ _ ha _ _ m _ ht =>
    have := sendTaken_operationsWaiting ha.2.2.1 ha.2.2.2.1
    rw [runTotal_of_idle hp, ht, startTransmit, runTotal_lineWrite (by decide)]
    change s.responses.length + operationsWaiting (sendTaken s) + 1 = _
    omega
  | resetEnds _ hp ht => rw [busy hp (by decide), ht, ← hw]; exact runTotal_lineWrite (by decide) _ _
  | settleEnds _ hp ht => rw [busy hp (by decide), ht, ← hw]; exact runTotal_lineWrite (by decide) _ _
  | dataEnds _ hp _ ht => rw [busy hp (by decide), ht, ← hw]; exact runTotal_lineWrite (by decide) _ _
  | gapEnds _ hp _ ht => rw [busy hp (by decide), ht, ← hw]; exact runTotal_lineWrite (by decide) _ _
  | lastGapEnds _ hp _ ht => rw [busy hp (by decide), ht, ← hw]; exact runTotal_of_busy (s := lastCell (phaseOverNow s)) (by simp [lastCell])
  | quietEnds _ hp ht => rw [busy hp (by decide), ht, ← hw]; exact runTotal_complete rfl

/-- A step uses the `rst` sample of its own. -/
theorem step_rstInputs {s t : State} (h : step s = .next t) : t.rstInputs = s.rstInputs.tail := by
  have hw : ∀ (ls : LineState) (p : Phase) (u : State), (lineWrite ls (enterPhase p) u).rstInputs = u.rstInputs := by
    intro ls p u
    rcases lineWrite_cases ls (enterPhase p) u with ⟨-, h⟩ | ⟨-, h⟩ <;> rw [h] <;> rfl
  cases step_cases h with
  | reset _ ht => rw [ht]; rfl
  | nothing _ _ _ _ ht => rw [ht]; rfl
  | initRefused _ _ _ _ _ _ _ ht => rw [ht]; rfl
  | initDone _ _ _ _ _ _ _ ht => rw [ht, complete_rstInputs, enableLines_rstInputs]; rfl
  | sendIllegal _ _ _ _ _ _ _ ht => rw [ht]; rfl
  | sendEarly _ _ _ _ _ _ _ _ ht => rw [ht]; rfl
  | sendStarts _ _ _ _ _ _ _ _ _ _ ht => rw [ht]; exact hw _ _ _
  | resetEnds _ _ ht => rw [ht]; exact hw _ _ _
  | settleEnds _ _ ht => rw [ht]; exact hw _ _ _
  | dataEnds _ _ _ ht => rw [ht]; exact hw _ _ _
  | gapEnds _ _ _ ht => rw [ht]; exact hw _ _ _
  | lastGapEnds _ _ _ ht => rw [ht]; rfl
  | quietEnds _ _ ht => rw [ht]; rfl

/-- A reset answers nothing: the operation in progress is lost (R169). -/
theorem step_runTotal_of_reset {s t : State} (hr : rstAsserted s = true) (h : step s = .next t) :
    runTotal t = s.responses.length + operationsWaiting s := by
  obtain rfl := Host.Outcome.next.inj ((step_of_reset hr).symm.trans h)
  rw [runTotal_of_idle (s := hardwareReset (beginStep s)) rfl, ← beginStep_operationsWaiting s]
  simp [hardwareReset, operationsWaiting]

/-- No step adds to what a run has answered and owes. -/
theorem step_runTotal_le {s t : State} (h : step s = .next t) : runTotal t ≤ runTotal s := by
  cases hr : rstAsserted s
  · exact (step_runTotal hr h).le
  · rw [step_runTotal_of_reset hr h]
    by_cases hp : s.phase = .idle
    · rw [runTotal_of_idle hp]
    · rw [runTotal_of_busy hp]; omega

/-! ## Runs -/

theorem run_runTotal_le {n : Nat} {s t : State} (h : Sys2Proof.core.run n s = .next t) : runTotal t ≤ runTotal s := by
  induction n generalizing s with
  | zero => rw [Host.Outcome.next.inj h]
  | succ n ih =>
    cases hs : step s with
    | next u => rw [core_run_cons hs] at h; exact (ih h).trans (step_runTotal_le hs)
    | fault r => simp only [Host.Core.run, Sys2Proof.core, hs] at h; cases h
    | refused r => simp only [Host.Core.run, Sys2Proof.core, hs] at h; cases h

theorem run_runTotal {n : Nat} {s t : State} (hr : noReset n s) (h : Sys2Proof.core.run n s = .next t) :
    runTotal t = runTotal s := by
  induction n generalizing s with
  | zero => rw [Host.Outcome.next.inj h]
  | succ n ih =>
    cases hs : step s with
    | next u =>
      rw [core_run_cons hs] at h
      have hu : noReset n u := fun j hj => by rw [step_rstInputs hs]; exact noReset_tail hr j hj
      exact (ih hu h).trans (step_runTotal (noReset_one.1 (noReset_mono (by omega) hr)) hs)
    | fault r => simp only [Host.Core.run, Sys2Proof.core, hs] at h; cases h
    | refused r => simp only [Host.Core.run, Sys2Proof.core, hs] at h; cases h

/-- Without reset a run is over exactly when no operation is left. -/
theorem runOver_iff_of_noReset {n : Nat} {s t : State} (hr : noReset n s) (h : Sys2Proof.core.run n s = .next t) :
    runOver s t ↔ operationsLeft t = 0 := by
  have := run_runTotal hr h
  unfold runOver; unfold runTotal at this
  constructor
  · rintro ⟨h1, -⟩; omega
  · intro h0; exact ⟨by omega, idle_of_operationsLeft h0⟩

/-- A run that lost an operation to `rst` is never over (R169, R187). -/
theorem not_runOver_of_lost {n : Nat} {s t u : State} (hp : s.phase ≠ .idle) (hr : rstAsserted s = true)
    (h : step s = .next t) (hu : Sys2Proof.core.run n t = .next u) {start : State} (hs : runTotal s ≤ runTotal start) :
    ¬ runOver start u := by
  have h1 := step_runTotal_of_reset hr h
  have h2 := run_runTotal_le hu
  rw [runTotal_of_busy hp] at hs
  rintro ⟨h3, -⟩
  unfold runTotal at h1 h2 hs
  omega

end Sys2Proof.Machine
end

