-- ==== Sys2Proof/Laws/Trace.lean ====
section
/-! SUPPORT. The trace of a complete transmission, event by event, and the positions of a transmission. -/

namespace Sys2Proof.Machine

/-! ## The events of TraceOf -/

theorem cellsTrace_length (m : Message) (d n : Nat) : (cellsTrace m d n).length = 4 * n := by
  induction n with
  | zero => rfl
  | succ n ih => simp [cellsTrace, cellTrace, ih]; omega

/-- The four events of bit-cell `i`. -/
theorem cellsTrace_get (m : Message) (d n i : Nat) (h : i < n) :
    (cellsTrace m d n)[4*i]? = some (.wrote (dataSymbol m i)) ∧ (cellsTrace m d n)[4*i+1]? = some (.held d)
    ∧ (cellsTrace m d n)[4*i+2]? = some (.wrote .standby) ∧ (cellsTrace m d n)[4*i+3]? = some (.held d) := by
  induction n with
  | zero => omega
  | succ n ih =>
    have hl := cellsTrace_length m d n
    by_cases hi : i = n
    · subst hi
      simp only [cellsTrace]
      refine ⟨?_, ?_, ?_, ?_⟩ <;> rw [List.getElem?_append_right (by omega)]
      · simp [hl, cellTrace]
      · simp [hl, cellTrace]
      · simp [hl, cellTrace]
      · simp [hl, cellTrace]
    · have := ih (by omega)
      simp only [cellsTrace]
      refine ⟨?_, ?_, ?_, ?_⟩ <;> rw [List.getElem?_append_left (by omega)]
      · exact this.1
      · exact this.2.1
      · exact this.2.2.1
      · exact this.2.2.2

/-- The line state of write `k`, counted from 0. -/
def writeAt (m : Message) (k : Nat) : LineState :=
  if k = 0 then .reset else if k % 2 = 1 then .standby else dataSymbol m ((k - 2) / 2)

/-- The hold after write `k`, counted from 0; the last one without the quiet period. -/
def holdAt (d k : Nat) : Nat := if k = 1 then 35000 else d

/-- The bit-cells begin at event 4 of TraceOf. -/
theorem traceOf_cells (m : Message) (d : Nat) {i : Nat} (h : i < 160) :
    (traceOf m d)[4 + i]? = (cellsTrace m d Config.nBits)[i]? := by
  have hl : (cellsTrace m d Config.nBits).length = 160 := cellsTrace_length m d 40
  unfold traceOf
  rw [List.getElem?_append_left (by simp [hl]; omega), List.getElem?_append_right (by simp)]
  simp

/-- Write `k` of TraceOf and the hold after it. -/
theorem traceOf_write (m : Message) (d k : Nat) (h : k ≤ 81) :
    (traceOf m d)[2 * k]? = some (.wrote (writeAt m k)) ∧ (traceOf m d)[2 * k + 1]? = some (.held (holdAt d k)) := by
  have hcase : k = 0 ∨ k = 1 ∨ ∃ i, i < 40 ∧ (k = 2 + 2 * i ∨ k = 3 + 2 * i) := by
    rcases Nat.lt_or_ge k 2 with h2 | h2
    · omega
    · exact .inr (.inr ⟨(k - 2) / 2, by omega, by omega⟩)
  unfold writeAt holdAt
  rcases hcase with rfl | rfl | ⟨i, hi, rfl | rfl⟩
  · simp [traceOf]
  · simp [traceOf, Config.tSettle]
  · obtain ⟨h0, h1, -, -⟩ := cellsTrace_get m d Config.nBits i hi
    rw [show 2 * (2 + 2 * i) = 4 + 4 * i by omega, Nat.add_assoc 4, traceOf_cells m d (by omega),
      traceOf_cells m d (by omega), h0, h1, if_neg (by omega), if_neg (by omega), if_neg (by omega),
      show (2 + 2 * i - 2) / 2 = i by omega]
    exact ⟨rfl, rfl⟩
  · obtain ⟨-, -, h2, h3⟩ := cellsTrace_get m d Config.nBits i hi
    rw [show 2 * (3 + 2 * i) = 4 + (4 * i + 2) by omega, Nat.add_assoc 4, traceOf_cells m d (by omega),
      traceOf_cells m d (by omega), h2, h3, if_neg (by omega), if_pos (by omega), if_neg (by omega)]
    exact ⟨rfl, rfl⟩

theorem traceOf_last (m : Message) (d : Nat) : (traceOf m d)[164]? = some (.held 1000000) := by
  unfold traceOf
  rw [List.getElem?_append_right (by simp [cellsTrace_length, Config.nBits])]
  simp [cellsTrace_length, Config.nBits, Config.tQuiet]

theorem take_succ_of_get {l : List Event} {n : Nat} {e : Event} (h : l[n]? = some e) :
    l.take (n + 1) = l.take n ++ [e] := by
  rw [List.take_add_one, h]; rfl

/-! ## Positions -/

theorem phaseAfter_data (i : Nat) (h : i < 40) : phaseAfter (2 + 2*i) = .data := by
  unfold phaseAfter; rw [if_neg (by omega), if_neg (by omega), if_pos (by omega), if_pos (by omega)]
theorem phaseAfter_gap (i : Nat) (h : i < 40) : phaseAfter (3 + 2*i) = .gap := by
  unfold phaseAfter; rw [if_neg (by omega), if_neg (by omega), if_pos (by omega), if_neg (by omega)]
theorem bitIdxAfter_data (b i : Nat) (h : i < 40) : bitIdxAfter b (2 + 2*i) = i := by
  unfold bitIdxAfter; rw [if_neg (by omega), if_pos (by omega)]; omega
theorem bitIdxAfter_gap (b i : Nat) (h : i < 40) : bitIdxAfter b (3 + 2*i) = i := by
  unfold bitIdxAfter; rw [if_neg (by omega), if_pos (by omega)]; omega
theorem writeAt_data (m : Message) (i : Nat) : writeAt m (2 + 2*i) = dataSymbol m i := by
  unfold writeAt; rw [if_neg (by omega), if_neg (by omega)]; congr 1; omega
theorem writeAt_gap (m : Message) (i : Nat) : writeAt m (3 + 2*i) = .standby := by
  unfold writeAt; rw [if_neg (by omega), if_pos (by omega)]

/-- The 82 positions at which something has been written last. -/
theorem position_cases (j : Nat) (h : j ≤ 81) : j = 0 ∨ j = 1 ∨ ∃ i, i < 40 ∧ (j = 2 + 2 * i ∨ j = 3 + 2*i) := by
  rcases Nat.lt_or_ge j 2 with h2 | h2
  · omega
  · exact .inr (.inr ⟨(j-2)/2, by omega, by omega⟩)

theorem lineWriteTime_succ (d j : Nat) (h : j ≤ 80) :
    lineWriteTime d (j + 1 + 1) = lineWriteTime d (j + 1) + holdAt d j := by
  unfold lineWriteTime holdAt
  rcases (by omega : j = 0 ∨ j = 1 ∨ 2 ≤ j) with rfl | rfl | h2
  · simp
  · simp
  · rw [if_neg (by omega), if_neg (by omega), if_neg (by omega), if_neg (by omega), if_neg (by omega)]
    obtain ⟨k, rfl⟩ := Nat.exists_eq_add_of_le h2
    rw [show 2 + k + 1 + 1 - 3 = k + 1 by omega, show 2 + k + 1 - 3 = k by omega, Nat.succ_mul]; omega

/-- The answers left after `j` of them, and the first of those. -/
theorem headD_drop (l : List Bool) (j : Nat) : (l.drop j).headD false = l.getD j false := by
  induction l generalizing j with
  | nil => simp
  | cons a l ih => cases j <;> simp_all [List.headD]

theorem bitIdx_succ {b : BitVec 6} (h : b.toNat < 39) : (b + 1#6).toNat = b.toNat + 1 := by
  rw [BitVec.toNat_add]; simp; omega

end Sys2Proof.Machine
end

