-- ==== Sys2Proof/Tests/Slice0.lean ====
section
/-! SUPPORT. Tests whose expected values are those of spec/95_test_vectors.md or worked out by hand from the rule cited, and,
for every statement with hypotheses, a witness that meets all of them together. -/

namespace Sys2Proof.Tests

open Machine

/-! ## Small states -/

/-- The state after the vector I1: `INIT rts=7, dtr=4, delay_us=1000`. -/
def ready : State := { State.reset with initialized := true, lineOe := true, config := ⟨7#8, 4#8, 1000#20⟩ }

/-- The state after the vector I3: an INIT of 499 µs has been refused, nothing else has happened since reset. -/
def early : State := { State.reset with err := .errInvalidArgument, responses := [⟨0, .errInvalidArgument⟩] }

/-- A transmission of `0xD5AA6000AD` (vector E1) at the beginning of phase `p` of bit-cell `b`, lines at `ls`. -/
def sending (p : Phase) (b : BitVec 6) (ls : LineState) : State :=
  { ready with
    msg := 0xD5AA6000AD#40, phase := p, bitIdx := b, dwell := phaseDuration p 1000#20
    rts := lineRts ls, dtr := lineDtr ls, wireKnown := true }

/-- One field of the state an outcome answers, if it is a next state. -/
def got {α : Type} (f : State → α) (o : Host.Outcome State Fault Refusal) : Option α :=
  match o with
  | .next t => some (f t)
  | .fault _ => none
  | .refused _ => none

/-! ## WellFormed -/

/-- 30_encoding R71: device 0 is illegal. -/
theorem test_wellFormed_refuses_device_0 : WellFormed (.on 0#4 0#5) = false := by decide

/-- 30_encoding R71: device 17 is illegal, also for a command that ignores the device. -/
theorem test_wellFormed_refuses_device_17 :
    WellFormed (.off 0#4 17#5) = false ∧ WellFormed (.bright 0#4 17#5) = false ∧ WellFormed (.dim 0#4 17#5) = false
    ∧ WellFormed (.allOff 0#4 17#5) = false ∧ WellFormed (.allOn 0#4 17#5) = false
    ∧ WellFormed (.lampsOff 0#4 17#5) = false ∧ WellFormed (.lampsOn 0#4 17#5) = false := by decide

/-- 30_encoding R71: a bit delay of 499 µs is illegal. -/
theorem test_wellFormed_refuses_delay_499 : WellFormed (.init 7#8 4#8 499#20) = false := by decide

/-- The boundary values on the legal side. -/
theorem test_wellFormed_accepts :
    WellFormed (.on 0#4 1#5) = true ∧ WellFormed (.on 15#4 16#5) = true ∧ WellFormed (.init 7#8 7#8 500#20) = true := by
  decide

/-! ## Decoding: words written out from 30_encoding R60 and R64, field by field -/

/-- E15: house B `0001`, device 2 `00010`, ON `000`. -/
theorem test_decode_on : decodeCmd 0b0001_00010_000#12 = .on 1#4 2#5 := by decide
/-- E18: house L `1011`, device 12 `01100`, OFF `001`. -/
theorem test_decode_off : decodeCmd 0b1011_01100_001#12 = .off 11#4 12#5 := by decide
/-- E5: house M `1100`, device 16 `10000`, BRIGHT `010`. -/
theorem test_decode_bright : decodeCmd 0b1100_10000_010#12 = .bright 12#4 16#5 := by decide
/-- E10: house A `0000`, device 7 `00111`, DIM `011`. -/
theorem test_decode_dim : decodeCmd 0b0000_00111_011#12 = .dim 0#4 7#5 := by decide
/-- E11: house A, device 1 `00001`, ALL_OFF `100`. -/
theorem test_decode_allOff : decodeCmd 0b0000_00001_100#12 = .allOff 0#4 1#5 := by decide
/-- E12: house P `1111`, device 16, ALL_ON `101`. -/
theorem test_decode_allOn : decodeCmd 0b1111_10000_101#12 = .allOn 15#4 16#5 := by decide
/-- E13: house M, device 9 `01001`, LAMPS_OFF `110`. -/
theorem test_decode_lampsOff : decodeCmd 0b1100_01001_110#12 = .lampsOff 12#4 9#5 := by decide
/-- X5: house P, device 17 `10001`, LAMPS_ON `111`: an illegal operand decodes. -/
theorem test_decode_lampsOn : decodeCmd 0b1111_10001_111#12 = .lampsOn 15#4 17#5 := by decide
/-- I6: pins 2 and 3, 2000 µs. -/
theorem test_decode_init :
    decodeInit 0b00000010_00000011_00000000011111010000#36 = .init 2#8 3#8 2000#20 := by decide

/-- The table's decoder reads `CW12` from 16 bits and `IW36` from 40, and refuses bits the channel cannot carry. -/
theorem test_decodeTableWord :
    decodeTableWord 16 0xF81 = some (.off 15#4 16#5) ∧ decodeTableWord 40 0x0704003E8 = some (.init 7#8 4#8 1000#20)
    ∧ decodeTableWord 16 0x1F81 = none ∧ decodeTableWord 40 0x10704003E8 = none ∧ decodeTableWord 24 0 = none := by
  decide

/-! ## The operations -/

/-- E15: `SEND B, 2, ON` gives the data 0x7010. -/
theorem test_on_message : got (·.msg) (exec (.on 1#4 2#5) ready) = some 0xD5AA7010AD#40 := by decide
/-- X7: before INIT, `ERR_NOT_INITIALIZED`. -/
theorem test_on_before_init : got (·.rsp) (exec (.on 0#4 1#5) State.reset) = some (some .errNotInitialized) := by decide

/-- E2, the source's own: `SEND P, 16, OFF` gives the data 0x3478. -/
theorem test_off_message : got (·.msg) (exec (.off 15#4 16#5) ready) = some 0xD5AA3478AD#40 := by decide
/-- X3: `SEND A, 31, OFF`, the largest device field, `ERR_INVALID_ARGUMENT`. -/
theorem test_off_device_31 : got (·.rsp) (exec (.off 0#4 31#5) ready) = some (some .errInvalidArgument) := by decide

/-- E5: `SEND M, 16, BRIGHT`, the device pattern 0x0458 is not ORed. -/
theorem test_bright_message : got (·.msg) (exec (.bright 12#4 16#5) ready) = some 0xD5AA0088AD#40 := by decide
/-- X4: `SEND M, 0, BRIGHT`: the device is validated although BRIGHT ignores it. -/
theorem test_bright_device_0 : got (·.rsp) (exec (.bright 12#4 0#5) ready) = some (some .errInvalidArgument) := by decide

/-- E10: `SEND A, 7, DIM` (GK). -/
theorem test_dim_message : got (·.msg) (exec (.dim 0#4 7#5) ready) = some 0xD5AA6098AD#40 := by decide
/-- R129, R101: the accepting step enters RESET with a dwell of one bit delay. -/
theorem test_dim_dwell : got (fun t => (t.phase, t.dwell)) (exec (.dim 0#4 7#5) ready) = some (.reset, 1000#20) := by decide

/-- E11: `SEND A, 1, ALL_OFF` (GK). -/
theorem test_allOff_message : got (·.msg) (exec (.allOff 0#4 1#5) ready) = some 0xD5AA6080AD#40 := by decide
/-- R101: the Reset write takes the lines from `11` to `00`. -/
theorem test_allOff_lines :
    got (·.lines) (exec (.allOff 0#4 1#5) { ready with rts := true, dtr := true }) = some .reset := by decide

/-- E12: `SEND P, 16, ALL_ON` (GK). -/
theorem test_allOn_message : got (·.msg) (exec (.allOn 15#4 16#5) ready) = some 0xD5AA3091AD#40 := by decide

/-- E13: `SEND M, 9, LAMPS_OFF` (GK). -/
theorem test_lampsOff_message : got (·.msg) (exec (.lampsOff 12#4 9#5) ready) = some 0xD5AA0084AD#40 := by decide

/-- E14: `SEND J, 2, LAMPS_ON` (GK). -/
theorem test_lampsOn_message : got (·.msg) (exec (.lampsOn 9#4 2#5) ready) = some 0xD5AAF094AD#40 := by decide
/-- X5: `SEND P, 17, LAMPS_ON`. -/
theorem test_lampsOn_device_17 : got (·.rsp) (exec (.lampsOn 15#4 17#5) ready) = some (some .errInvalidArgument) := by decide

/-- I3: 499 µs is refused; `initialized` and `line_oe` stay 0. -/
theorem test_init_499 :
    got (fun t => (t.err, t.initialized, t.lineOe)) (exec (.init 7#8 4#8 499#20) State.reset)
      = some (.errInvalidArgument, false, false) := by decide
/-- I6: a second INIT overwrites LineConfig; the lines are untouched. -/
theorem test_init_again :
    got (fun t => (t.config, t.lines)) (exec (.init 2#8 3#8 2000#20) { ready with rts := true, dtr := true })
      = some (⟨2#8, 3#8, 2000#20⟩, .standby) := by decide

/-! ## The Transmitter -/

/-- T1: the 40 bits of `0xD5AA6000AD`, bit-cell 0 first. -/
theorem test_bit_order :
    (List.range 40).map (fun i => (bitOf 0xD5AA6000AD#40 i).toNat)
      = [1,1,0,1,0,1,0,1, 1,0,1,0,1,0,1,0, 0,1,1,0,0,0,0,0, 0,0,0,0,0,0,0,0, 1,0,1,0,1,1,0,1] := by decide

/-- T3: `T_total` for 500, 1000 and 2000 µs, and the time of the last write. -/
theorem test_durations :
    totalTime 500 = 1075500 ∧ totalTime 1000 = 1116000 ∧ totalTime 2000 = 1197000 ∧ lineWriteTime 1000 82 = 115000
    ∧ lineWriteTime 2000 82 = 195000 := by decide

/-- T4: `STATUS` in (DATA, 5) is 0x18C5. -/
theorem test_status_in_data : (sending .data 5#6 .logical1).status = 0x18C5#13 := by decide

/-- P1: `STATUS` at its end is 0x1027. -/
theorem test_status_at_end : { ready with bitIdx := 39#6 }.status = 0x1027#13 := by decide

/-- T2, write 4: the end of (DATA, 0) writes Standby and enters GAP; 1000 µs have passed. -/
theorem test_step_data :
    got (fun t => (t.phase, t.lines, t.now)) (step (sending .data 0#6 .logical1)) = some (.gap, .standby, 1000) := by decide

/-- T2, write 7: the end of (GAP, 1) writes Logical-0, bit 2 of the message. -/
theorem test_step_gap :
    got (fun t => (t.phase, t.bitIdx, t.lines)) (step (sending .gap 1#6 .standby)) = some (.data, 2#6, .logical0) := by
  decide

/-- T5, `k` = 3: the first data write fails; `bit_idx` has become 0, the attempted `10` stays. -/
theorem test_step_fault :
    got (fun t => (t.phase, t.bitIdx, t.lines, t.err)) (step { sending .settle 39#6 .standby with lineFaults := [true] })
      = some (.idle, 0#6, .logical1, .errLineWrite) := by decide

/-- U9: `bit_idx` 40 in DATA is stuck. -/
theorem test_step_stuck : step (sending .data 40#6 .standby) = .fault .bitIdxOutOfRange := rfl

/-- R187: a run of one illegal SEND is over when its pulse has come, and not before. -/
theorem test_runOver :
    let s := withProgram [.sendOnly 0x088#12] ready
    ¬ runOver s s ∧ ∃ t, step s = .next t ∧ runOver s t :=
  ⟨by unfold runOver; decide, _, rfl, by unfold runOver; decide⟩

/-- R169, R187: a transmission that `rst` ended has produced no pulse, so its run is not over in IDLE. -/
theorem test_runOver_after_rst :
    let s := { sending .data 0#6 .logical1 with rstInputs := [true] }
    ∃ t, step s = .next t ∧ t.phase = .idle ∧ ¬ runOver s t :=
  ⟨_, rfl, rfl, by unfold runOver; decide⟩

/-- R120 at 1 MHz: the last µs of a phase ends it, one before does not. -/
theorem test_clock_tick :
    got (·.phase) (clockStep 1000000 { sending .data 0#6 .logical1 with dwell := 1#20 }) = some .gap
    ∧ got (·.dwell) (clockStep 1000000 (sending .data 0#6 .logical1)) = some 999#20 := by decide

/-- P2's first line comes from a program; it meets no INIT. -/
theorem test_program_runs :
    got (·.err) (step (withProgram [.sendOnly 0xF81#12] State.reset)) = some .errNotInitialized := by decide

/-- R75: `SEND J, 2, LAMPS_ON` assembles to the word of E14. -/
theorem test_assemble :
    assembleProgram [.init 7 4 1000, .send .J (some 2) .lampsOn]
      = .ok [.initOnly 0x0704003E8#36, .sendOnly 0x917#12] := by decide

/-- The lines of P1 as text, the second also in the source's spelling of its operands (R74), and two that are no lines. -/
theorem test_readLine :
    readLine "INIT rts=7, dtr=4, delay_us=1000" = some (.init 7 4 1000)
    ∧ readLine "SEND A, 1, ON" = some (.send .A (some 1) .on) ∧ readLine "SEND hcA, 1, cmdOn" = readLine "SEND A, 1, ON"
    ∧ readLine "SEND P, LAMPS_OFF" = some (.send .P none .lampsOff)
    ∧ readLine "SEND Q, 1, ON" = none ∧ readLine "SEND A, one, ON" = none := by decide

/-- A line printed and read back. -/
theorem test_lineText : readLine (lineText (.send .J (some 2) .lampsOn)) = some (.send .J (some 2) .lampsOn) := by decide

/-- The very next step runs the word `withFetchWord` places, from reset. -/
theorem test_withFetchWord :
    got (·.config) (step (State.reset.withFetchWord 40 0x0704003E8)) = some ⟨7#8, 4#8, 1000#20⟩
    ∧ got (·.err) (step (State.reset.withFetchWord 16 0x008)) = some .errNotInitialized := by decide

/-! ## Witnesses: for each statement with hypotheses, states and operands that meet them together -/

theorem reset_noReset (n : Nat) : noReset n State.reset := fun _ _ => rfl
theorem ready_noReset (n : Nat) : noReset n ready := fun _ _ => rfl
theorem ready_noLineFault (n : Nat) : noLineFault n ready := fun _ _ => rfl
theorem sending_noReset (n : Nat) (p b ls) : noReset n (sending p b ls) := fun _ _ => rfl
theorem sending_noLineFault (n : Nat) (p b ls) : noLineFault n (sending p b ls) := fun _ _ => rfl

/-- The invariant holds after the refused INIT of I3. -/
theorem early_meets_Inv : Inv early := by constructor <;> simp [early, State.reset, phaseDuration, heldLine]

/-- The invariant holds after INIT. -/
theorem ready_meets_Inv : Inv ready := by constructor <;> simp [ready, State.reset, phaseDuration, heldLine]

/-- The invariant holds in a phase whose line state is on the lines. -/
theorem sending_meets_Inv {p : Phase} {b : BitVec 6} {ls : LineState} (hb : b.toNat ≤ 39)
    (hl : ∀ l, heldLine (sending p b ls) = some l → ls = l) : Inv (sending p b ls) where
  bitIdx_le := hb
  dwell_eq := rfl
  presc_zero := rfl
  busy_initialized := fun _ => rfl
  initialized_config := fun _ => ⟨(by decide : 500 ≤ (1000#20).toNat), rfl⟩
  uninitialized := fun h => by cases h
  held_lines := fun l h => (lineOfLevels_of_line ls).trans (hl l h)
  busy_framed := fun _ => (by decide : msgFramed 0xD5AA6000AD#40 = true)
  busy_wires := fun _ => rfl
  rsp_err := fun e h => by cases h

theorem reset_phase_Inv : Inv (sending .reset 0#6 .reset) := sending_meets_Inv (by decide) (by rintro l ⟨⟩; rfl)
theorem settle_phase_Inv : Inv (sending .settle 39#6 .standby) := sending_meets_Inv (by decide) (by rintro l ⟨⟩; rfl)
theorem data_phase_Inv : Inv (sending .data 39#6 .logical1) :=
  sending_meets_Inv (by decide) fun _ h =>
    Option.some.inj ((by decide : some LineState.logical1 = heldLine (sending .data 39#6 .logical1)).trans h)
theorem gap_phase_Inv : Inv (sending .gap 38#6 .standby) := sending_meets_Inv (by decide) (by rintro l ⟨⟩; rfl)
theorem last_gap_phase_Inv : Inv (sending .gap 39#6 .standby) := sending_meets_Inv (by decide) (by rintro l ⟨⟩; rfl)
theorem quiet_phase_Inv : Inv (sending .quiet 39#6 .standby) := sending_meets_Inv (by decide) (by rintro l ⟨⟩; rfl)

/-- The first and the last bit-cell, and the bits 39 and 0 they carry. -/
theorem witness_BitCellCarriesMsbFirstBit :
    0 < 40 ∧ 39 < 40 ∧ bitOf 0x8000000000#40 0 = true ∧ bitOf 0x0000000001#40 39 = true := by decide

/-- Each way operands are invalid, next to the valid values. -/
theorem witness_EncodeComposesTheMessage :
    encodeMessage lut 16 1 0 = none ∧ encodeMessage lut 0 0 0 = none ∧ encodeMessage lut 0 17 0 = none
    ∧ encodeMessage lut 0 1 8 = none ∧ (encodeMessage lut 15 16 7).isSome = true
    ∧ (encodeMessage lut 0 1 0).isSome = true := by decide

/-- The least and the greatest valid operands. -/
theorem witness_EveryMessageIsFramed :
    (0 ≤ 15 ∧ 1 ≤ 1 ∧ 1 ≤ 16 ∧ 0 ≤ 7) ∧ (15 ≤ 15 ∧ 1 ≤ 16 ∧ 16 ≤ 16 ∧ 7 ≤ 7)
    ∧ encodeMessage lut 15 16 7 = some 0xD5AA3094AD#40 := by decide

/-- Commands 0 and 1 use the device, commands 2 and 7 do not. -/
theorem witness_DataBytesOfEachCommand :
    (0 : Fin 8).val ≤ 1 ∧ (1 : Fin 8).val ≤ 1 ∧ 2 ≤ (2 : Fin 8).val ∧ 2 ≤ (7 : Fin 8).val
    ∧ encodeMessage lut 0 16 1 = some 0xD5AA6478AD#40 ∧ encodeMessage lut 12 5 2 = encodeMessage lut 12 16 2 := by decide

/-- Three reads, two reads, and each way of none. -/
theorem witness_TableReadsOfOneSend :
    tableReads 0 1 1 = [.house 0, .device 0, .cmd 1] ∧ tableReads 15 16 2 = [.house 15, .cmd 2]
    ∧ tableReads 16 1 0 = [] ∧ tableReads 0 0 0 = [] ∧ tableReads 0 17 0 = [] ∧ tableReads 0 1 8 = [] := by decide

/-- The default tables are lawful. -/
theorem witness_OrOfLawfulPatternsIsTheirSum : Tables.lawful lut = true := by decide

/-- Two different commands with the same message: BRIGHT to devices 1 and 16. -/
theorem witness_DefaultMessagesAreDistinct :
    encodeMessage lut (12 : Fin 16).val ((0 : Fin 16).val + 1) (2 : Fin 8).val
      = encodeMessage lut (12 : Fin 16).val ((15 : Fin 16).val + 1) (2 : Fin 8).val := by decide

/-- Devices 1 and 16 after I1. -/
theorem witness_OnStartsItsTransmission :
    ready.phase = .idle ∧ ready.initialized = true ∧ 1 ≤ (1#5).toNat ∧ (16#5).toNat ≤ 16 ∧ noLineFault 1 ready :=
  ⟨rfl, rfl, by decide, by decide, ready_noLineFault 1⟩

theorem witness_OffStartsItsTransmission :
    ready.phase = .idle ∧ ready.initialized = true ∧ 1 ≤ (1#5).toNat ∧ (16#5).toNat ≤ 16 ∧ noLineFault 1 ready :=
  witness_OnStartsItsTransmission

theorem witness_HouseCommandsStartTheirTransmission :
    ready.phase = .idle ∧ ready.initialized = true ∧ 1 ≤ (1#5).toNat ∧ (16#5).toNat ≤ 16 ∧ noLineFault 1 ready :=
  witness_OnStartsItsTransmission

/-- The first write fails (T5, `k` = 1). -/
theorem witness_FailedResetWriteAbortsTheSend :
    let s := { ready with lineFaults := [true] }
    s.phase = .idle ∧ s.initialized = true ∧ 1 ≤ (1#5).toNat ∧ (16#5).toNat ≤ 16 ∧ lineFaultAfter 0 s
    ∧ encodeMessage lut (12#4).toNat (16#5).toNat (commandIndex .bright) = some 0xD5AA0088AD#40 :=
  ⟨rfl, rfl, by decide, by decide, ⟨fun _ h => absurd h (by omega), rfl⟩, by decide⟩

/-- Devices 0 and 17, with and without INIT (X1, X2, X8). -/
theorem witness_IllegalDeviceRaisesInvalidArgument :
    ready.phase = .idle ∧ State.reset.phase = .idle ∧ (0#5).toNat = 0 ∧ 16 < (17#5).toNat ∧ 16 < (31#5).toNat := by decide

theorem witness_SendBeforeInitRaisesNotInitialized :
    State.reset.phase = .idle ∧ State.reset.initialized = false ∧ 1 ≤ (1#5).toNat ∧ (16#5).toNat ≤ 16 := by decide

/-- The first INIT with the least delay, and a later one with the greatest. -/
theorem witness_InitConfiguresAndCompletes :
    (State.reset.phase = .idle ∧ State.reset.lineOe = false ∧ 500 ≤ (500#20).toNat)
    ∧ (ready.phase = .idle ∧ ready.lineOe = true ∧ 500 ≤ (1048575#20).toNat) := by decide

/-- The two clauses on either side of 500 µs; the second for a first INIT and for a further one. -/
theorem witness_ShortDelayInitRaisesInvalidArgument :
    (Inv ready ∧ ready.phase = .idle ∧ (499#20).toNat < 500 ∧ (0#20).toNat < 500)
    ∧ (ready.lineOe = true ∧ State.reset.phase = .idle ∧ State.reset.lineOe = false
      ∧ ¬ (500#20).toNat < 500 ∧ ¬ (1048575#20).toNat < 500) :=
  ⟨⟨ready_meets_Inv, rfl, by decide, by decide⟩, by decide⟩

theorem witness_InvalidArgumentExactlyForIllFormed :
    ready.phase = .idle ∧ ready.rsp = none ∧ WellFormed (.on 0#4 0#5) = false ∧ WellFormed (.on 0#4 1#5) = true := by decide

theorem witness_BusyMachineAcceptsNothing : (sending .quiet 39#6 .standby).phase ≠ .idle := by decide

/-- Each of the three reasons. -/
theorem witness_RefusedSendChangesOnlyErr :
    (Inv early ∧ early.phase = .idle ∧ early.initialized = false)
    ∧ (Inv ready ∧ ready.phase = .idle ∧ (0#5).toNat = 0 ∧ 16 < (17#5).toNat) :=
  ⟨⟨early_meets_Inv, rfl, rfl⟩, ready_meets_Inv, rfl, by decide, by decide⟩

theorem witness_ResetPhaseLeadsToSettle :
    noLineFault 1 ready ∧ Inv (sending .reset 0#6 .reset) ∧ (sending .reset 0#6 .reset).phase = .reset
    ∧ noLineFault 1 (sending .reset 0#6 .reset) :=
  ⟨ready_noLineFault 1, reset_phase_Inv, rfl, sending_noLineFault 1 _ _ _⟩

theorem witness_SettlePhaseLeadsToFirstBit :
    Inv (sending .settle 39#6 .standby) ∧ (sending .settle 39#6 .standby).phase = .settle
    ∧ noLineFault 1 (sending .settle 39#6 .standby) :=
  ⟨settle_phase_Inv, rfl, sending_noLineFault 1 _ _ _⟩

theorem witness_DataPhaseLeadsToGap :
    Inv (sending .data 39#6 .logical1) ∧ (sending .data 39#6 .logical1).phase = .data
    ∧ noLineFault 1 (sending .data 39#6 .logical1) :=
  ⟨data_phase_Inv, rfl, sending_noLineFault 1 _ _ _⟩

/-- Bit-cells 38 and 39, where the two clauses meet. -/
theorem witness_GapPhaseLeadsToNextBitOrQuiet :
    (Inv (sending .gap 38#6 .standby) ∧ (sending .gap 38#6 .standby).phase = .gap ∧ (38#6).toNat < 39
      ∧ noLineFault 1 (sending .gap 38#6 .standby))
    ∧ (Inv (sending .gap 39#6 .standby) ∧ (sending .gap 39#6 .standby).phase = .gap ∧ (39#6).toNat = 39) :=
  ⟨⟨gap_phase_Inv, rfl, by decide, sending_noLineFault 1 _ _ _⟩, last_gap_phase_Inv, rfl, by decide⟩

theorem witness_QuietPhaseCompletesTheSend :
    Inv (sending .quiet 39#6 .standby) ∧ (sending .quiet 39#6 .standby).phase = .quiet :=
  ⟨quiet_phase_Inv, rfl⟩

/-- A failing write at the end of each phase that writes. -/
theorem witness_FailedLineWriteAbortsTheTransmission :
    let s := fun p b ls => { sending p b ls with lineFaults := [true] }
    nextWrite (s .reset 0#6 .reset) = some .standby ∧ nextWrite (s .settle 39#6 .standby) = some .logical1
    ∧ nextWrite (s .data 39#6 .logical1) = some .standby ∧ nextWrite (s .gap 38#6 .standby) = some .logical1
    ∧ (s .data 39#6 .logical1).bitIdx.toNat ≤ 39 ∧ lineFaultAfter 0 (s .gap 38#6 .standby) :=
  ⟨rfl, rfl, rfl, rfl, by decide, fun _ h => absurd h (by omega), rfl⟩

/-- A step that answers, at 39, and the stuck ones, at 40 in DATA and at 63 in GAP. -/
theorem witness_StepStopsOnlyOnBitIdxAbove39 :
    (∃ t, step (sending .data 39#6 .logical1) = .next t)
    ∧ (noReset 1 (sending .data 40#6 .standby) ∧ (sending .data 40#6 .standby).phase = .data ∧ 39 < (40#6).toNat)
    ∧ (noReset 1 (sending .gap 63#6 .standby) ∧ (sending .gap 63#6 .standby).phase = .gap ∧ 39 < (63#6).toNat) :=
  ⟨⟨_, rfl⟩, ⟨sending_noReset 1 _ _ _, rfl, by decide⟩, sending_noReset 1 _ _ _, rfl, by decide⟩

/-- An INIT and a SEND on their channels. -/
theorem witness_StepRunsTheOfferedOperation :
    ready.phase = .idle ∧ noReset 1 ready
    ∧ (encode (.init 7#8 4#8 1000#20) = .init 0x0704003E8#36
      ∧ { ready with initPort := some 0x0704003E8#36 }.initPort = some 0x0704003E8#36)
    ∧ (encode (.on 0#4 1#5) = .cmd 0x008#12
      ∧ { ready with cmdPort := some 0x008#12 }.initPort = none
      ∧ { ready with cmdPort := some 0x008#12 }.cmdPort = some 0x008#12) :=
  ⟨rfl, ready_noReset 1, ⟨by decide, rfl⟩, by decide, rfl, rfl⟩

theorem witness_FetchedTableWordIsRun :
    (0x008 < 2 ^ 16 ∧ decodeTableWord 16 0x008 = some (.on 0#4 1#5))
    ∧ (0xFFFFFFFFF < 2 ^ 40 ∧ decodeTableWord 40 0xFFFFFFFFF = some (.init 255#8 255#8 1048575#20)) := by decide

theorem witness_BusyStepEndsThePhase :
    (sending .gap 39#6 .standby).phase ≠ .idle ∧ noReset 1 (sending .gap 39#6 .standby)
    ∧ { sending .gap 39#6 .standby with cmdPort := some 0x008#12 }.cmdPort ≠ none :=
  ⟨by decide, sending_noReset 1 _ _ _, by decide⟩

theorem witness_IdleStepWithoutOfferChangesNothing :
    State.reset.phase = .idle ∧ noReset 1 State.reset ∧ State.reset.initPort = none ∧ State.reset.cmdPort = none
    ∧ State.reset.program = [] :=
  ⟨rfl, reset_noReset 1, rfl, rfl, rfl⟩

/-- The delays 500 µs and 499 µs, one for each clause (the first as in P5). -/
theorem witness_InitGoesBeforeSend :
    let s := fun d => { ready with initPort := some (initWord 7#8 4#8 d), cmdPort := some 0xC0A#12 }
    ((s 500#20).phase = .idle ∧ noReset 2 (s 500#20) ∧ (s 500#20).initPort = some (initWord 7#8 4#8 500#20)
      ∧ (s 500#20).cmdPort = some 0xC0A#12 ∧ 500 ≤ (500#20).toNat)
    ∧ (noReset 2 (s 499#20) ∧ (s 499#20).initPort = some (initWord 7#8 4#8 499#20) ∧ (499#20).toNat < 500) :=
  ⟨⟨rfl, fun _ _ => rfl, rfl, rfl, by decide⟩, fun _ _ => rfl, rfl, by decide⟩

/-- Reset in the middle of a transmission, with an offer waiting. -/
theorem witness_ResetInputEntersTheResetState :
    let s := { sending .data 5#6 .logical1 with rstInputs := [true], cmdPort := some 0x008#12 }
    s.rstInputs.headD false = true ∧ s.cmdPort ≠ none := by decide

theorem witness_InvIsKeptByEveryStep :
    Inv (sending .data 39#6 .logical1) ∧ (∃ t, step (sending .data 39#6 .logical1) = .next t)
    ∧ Inv early ∧ ∃ t, step early = .next t :=
  ⟨data_phase_Inv, ⟨_, rfl⟩, early_meets_Inv, _, rfl⟩

/-- One witness for each clause: a first INIT; a step after it; the step that sets `initialized`; an early SEND. -/
theorem witness_InitializedIsSetByInitOnly :
    (State.reset.phase = .idle ∧ 500 ≤ (500#20).toNat ∧ ∃ t, exec (.init 7#8 4#8 500#20) State.reset = .next t)
    ∧ (noReset 1 ready ∧ ready.initialized = true ∧ ∃ t, step ready = .next t)
    ∧ (State.reset.initialized = false
      ∧ ∃ t, step (State.reset.withFetchWord 40 0x0704003E8) = .next t ∧ t.initialized = true)
    ∧ (1 ≤ (1#5).toNat ∧ (16#5).toNat ≤ 16) :=
  ⟨⟨rfl, by decide, _, rfl⟩, ⟨ready_noReset 1, rfl, _, rfl⟩, ⟨rfl, _, rfl, rfl⟩, by decide, by decide⟩

theorem witness_BusyStepKeepsMessageAndConfig :
    let s := { sending .data 0#6 .logical1 with initPort := some 0x0704001F4#36 }
    s.phase ≠ .idle ∧ noReset 1 s ∧ (∃ t, step s = .next t) ∧ s.initPort ≠ none :=
  ⟨by decide, fun _ _ => rfl, ⟨_, rfl⟩, by decide⟩

theorem witness_OnlyInitChangesLineConfig :
    let s := { ready with initPort := some 0x0203007D0#36 }
    noReset 1 s ∧ ∃ t, step s = .next t ∧ t.config ≠ s.config :=
  ⟨fun _ _ => rfl, _, rfl, by decide⟩

theorem witness_OnlyAnErrorFreeSendLeavesIdle :
    let s := { ready with cmdPort := some 0x008#12 }
    s.phase = .idle ∧ ∃ t, step s = .next t ∧ t.phase ≠ .idle :=
  ⟨rfl, _, rfl, by decide⟩

theorem witness_LinesChangeOnlyByOneWriteAStep :
    noReset 1 (sending .gap 39#6 .standby) ∧ (∃ t, step (sending .gap 39#6 .standby) = .next t)
    ∧ noReset 1 (sending .data 0#6 .logical1) ∧ ∃ t, step (sending .data 0#6 .logical1) = .next t :=
  ⟨sending_noReset 1 _ _ _, ⟨_, rfl⟩, sending_noReset 1 _ _ _, _, rfl⟩

/-- A step that completes an operation and one that does not. -/
theorem witness_EachCompletionIsOnePulse :
    noReset 1 (sending .quiet 39#6 .standby)
    ∧ (∃ t, step (sending .quiet 39#6 .standby) = .next t ∧ t.rsp = some .errNone)
    ∧ ∃ t, step (sending .reset 0#6 .reset) = .next t ∧ t.rsp = none :=
  ⟨sending_noReset 1 _ _ _, ⟨_, rfl, rfl⟩, _, rfl, rfl⟩

theorem witness_OffersDoNotTouchATransmission :
    (sending .data 0#6 .logical1).phase ≠ .idle ∧ noReset 1 (sending .data 0#6 .logical1)
    ∧ ∃ t, step (sending .data 0#6 .logical1) = .next t :=
  ⟨by decide, sending_noReset 1 _ _ _, _, rfl⟩

theorem witness_TransmissionKeepsALineHigh :
    (Inv (sending .reset 0#6 .reset) ∧ (sending .reset 0#6 .reset).phase ≠ .idle)
    ∧ (Inv (sending .data 39#6 .logical1) ∧ (sending .data 39#6 .logical1).phase ≠ .idle
      ∧ (sending .data 39#6 .logical1).phase ≠ .reset) :=
  ⟨⟨reset_phase_Inv, by decide⟩, data_phase_Inv, by decide, by decide⟩

theorem witness_FaultFreeTransmissionEmitsItsTrace : noReset 83 ready ∧ noLineFault 82 ready :=
  ⟨ready_noReset 83, ready_noLineFault 82⟩

theorem witness_TransmissionVisitsItsPhasesInOrder : noReset 83 ready ∧ noLineFault 82 ready ∧ 83 ≤ 83 :=
  ⟨ready_noReset 83, ready_noLineFault 82, le_rfl⟩

/-- The first and the last write. -/
theorem witness_EachLineWriteComesAtItsTime :
    noReset 83 ready ∧ noLineFault 82 ready ∧ (1 ≤ 1 ∧ 1 ≤ 82) ∧ (1 ≤ 82 ∧ 82 ≤ 82) :=
  ⟨ready_noReset 83, ready_noLineFault 82, by omega, by omega⟩

/-- The first write fails, and the last (T5, `k` = 1 and 82). -/
theorem witness_FaultAtAnyWriteTruncatesTheTrace :
    noReset 83 ready ∧ lineFaultAfter 0 { ready with lineFaults := [true] }
    ∧ lineFaultAfter 81 { ready with lineFaults := List.replicate 81 false ++ [true] } := by
  refine ⟨ready_noReset 83, ⟨fun _ h => absurd h (by omega), rfl⟩, ?_, by decide⟩
  unfold noLineFault
  decide

theorem witness_EveryTransmissionEnds :
    Inv (sending .data 39#6 .logical1) ∧ (sending .data 39#6 .logical1).phase ≠ .idle
    ∧ noReset 83 (sending .data 39#6 .logical1) :=
  ⟨data_phase_Inv, by decide, sending_noReset 83 _ _ _⟩

/-- The least delay, 500 µs, and the greatest, 1048.575 ms. -/
theorem witness_MillisecondsConvertToWholeMicroseconds :
    delayOfMs 1 2 = some 500#20 ∧ (1000 ≠ 0 ∧ 1048575 * 1000 = 1048575 * 1000 ∧ 1048575 ≤ 1048575)
    ∧ delayOfMs 1048575 1000 = some 1048575#20 ∧ delayOfMs 1048576 1000 = none := by decide

theorem witness_ClockEdgesOfAPhaseAreOnePhaseStep :
    1 ≤ 1 ∧ (sending .data 0#6 .logical1).phase ≠ .idle ∧ (sending .data 0#6 .logical1).presc = 0
    ∧ 1 ≤ (sending .data 0#6 .logical1).dwell.toNat ∧ (sending .data 0#6 .logical1).rstInputs = [] := by decide

theorem witness_ClockEdgeInIdleIsAPhaseStep : ready.phase = .idle ∧ ready.presc = 0 := by decide

/-- The clock level's invariant at 2 MHz, in a phase with one µs left and the prescaler at its last value. -/
theorem witness_ClockInvIsKeptByEveryEdge :
    let s := { sending .data 39#6 .logical1 with dwell := 1#20, presc := 1 }
    1000000 ≤ 2000000 ∧ ClockInv 2000000 s ∧ ∃ t, clockStep 2000000 s = .next t :=
  ⟨by decide, ⟨by decide, fun _ => by decide, by decide, fun _ => by decide, fun _ => rfl⟩, _, rfl⟩

theorem witness_ClockRunsNeverStop : 1000000 ≤ 1000000 ∧ ClockInv 1000000 State.reset :=
  ⟨le_rfl, ⟨by decide, fun h => absurd rfl h, by decide, fun h => absurd h (by decide), fun h => absurd rfl h⟩⟩

end Sys2Proof.Tests
end

section
/-! The flag `initialized` (10_state R24) and the state after reset (R38): what each action of a step does to the flag, and
the two statements assembled from that. -/

namespace Sys2Proof.Machine

/-! ## The actions of a step that keep `initialized` -/

/-- A line write, failed or not, keeps `initialized` if what follows it does. -/
theorem lineWrite_initialized {k : State → State} (hk : ∀ u, (k u).initialized = u.initialized)
    (ls : LineState) (s : State) : (lineWrite ls k s).initialized = s.initialized := by
  rcases lineWrite_cases ls k s with ⟨-, hw⟩ | ⟨-, hw⟩
  · rw [hw, hk]; rfl
  · rw [hw]; rfl

@[simp] theorem startTransmit_initialized (s : State) : (startTransmit s).initialized = s.initialized :=
  lineWrite_initialized (enterPhase_initialized .reset) _ _

@[simp] theorem endReset_initialized (s : State) : (endReset s).initialized = s.initialized :=
  lineWrite_initialized (enterPhase_initialized .settle) _ _

@[simp] theorem endSettle_initialized (s : State) : (endSettle s).initialized = s.initialized :=
  lineWrite_initialized (enterPhase_initialized .data) _ _

@[simp] theorem endData_initialized (s : State) : (endData s).initialized = s.initialized :=
  lineWrite_initialized (enterPhase_initialized .gap) _ _

@[simp] theorem nextCell_initialized (s : State) : (nextCell s).initialized = s.initialized :=
  lineWrite_initialized (enterPhase_initialized .data) _ _

@[simp] theorem lastCell_initialized (s : State) : (lastCell s).initialized = s.initialized := rfl

@[simp] theorem endQuiet_initialized (s : State) : (endQuiet s).initialized = s.initialized := rfl

/-! ## The operations on `initialized` -/

/-- INIT with a legal delay in IDLE configures the machine and completes (42_command_surface R124). -/
theorem exec_init_of_legal {p q : Pin} {d : Delay} {s : State} (hp : s.phase = .idle) (hd : 500 ≤ d.toNat) :
    exec (.init p q d) s = .next (complete .errNone (enableLines (configure p q d s))) := by
  rcases execInit_cases p q d s with ⟨hb, -⟩ | ⟨-, hlt, -⟩ | ⟨-, -, he⟩
  · exact absurd hp hb
  · omega
  · exact he

/-- A SEND with a legal device before any INIT raises NotInitialized (60_exceptions R143). -/
theorem exec_send_of_uninitialized {c : Command} {house : BitVec 4} {device : BitVec 5} {s : State}
    (hp : s.phase = .idle) (hi : s.initialized = false) (h1 : 1 ≤ device.toNat) (h16 : device.toNat ≤ 16) :
    exec (sendInstr c house device) s = .next (raiseError .errNotInitialized s) := by
  rw [exec_sendInstr]
  rcases send_cases lut c house device s with ⟨hb, -⟩ | ⟨-, hd, -⟩ | ⟨-, -, -, -, he⟩ | ⟨-, -, -, hi', -⟩
  · exact absurd hp hb
  · omega
  · rw [he]
  · simp [hi] at hi'

/-! ## Steps -/

/-- A step with `rst` asserted clears `initialized` (70_reset_and_hazards R167). -/
theorem step_initialized_of_reset {s t : State} (hr : rstAsserted s = true) (h : step s = .next t) :
    t.initialized = false := by
  obtain rfl := Host.Outcome.next.inj ((step_of_reset hr).symm.trans h)
  exact hardwareReset_initialized _

/-- Without reset a step keeps `initialized`, or it accepts a legal INIT and sets it. -/
theorem step_initialized_cases {s t : State} (hr : rstAsserted s = false) (h : step s = .next t) :
    t.initialized = s.initialized
    ∨ (t.initialized = true ∧ ∃ (p q : Pin) (d : Delay), 500 ≤ d.toNat ∧ acceptsInit s p q d) := by
  cases step_cases h with
  | reset hr' => rw [hr] at hr'; cases hr'
  | initDone _ _ p q d ha hd ht => exact .inr ⟨by simp [ht], p, q, d, hd, ha⟩
  | nothing _ _ _ _ ht => simp [ht]
  | initRefused _ _ _ _ _ _ _ ht => simp [ht]
  | sendIllegal _ _ _ _ _ _ _ ht => simp [ht]
  | sendEarly _ _ _ _ _ _ _ _ ht => simp [ht]
  | sendStarts _ _ _ _ _ _ _ _ _ _ ht => simp [ht]
  | resetEnds _ _ ht => simp [ht]
  | settleEnds _ _ ht => simp [ht]
  | dataEnds _ _ _ ht => simp [ht]
  | gapEnds _ _ _ ht => simp [ht]
  | lastGapEnds _ _ _ ht => simp [ht]
  | quietEnds _ _ ht => simp [ht]

/-- Without reset no step clears `initialized`. -/
theorem step_keeps_initialized {s t : State} (hr : rstAsserted s = false) (h : step s = .next t)
    (hi : s.initialized = true) : t.initialized = true := by
  rcases step_initialized_cases hr h with hk | ⟨ht, -⟩
  · exact hk.trans hi
  · exact ht

/-- A step that sets `initialized` accepts a legal INIT; no premise on `rst` is needed, since a reset clears it. -/
theorem acceptsInit_of_step_sets_initialized {s t : State} (h : step s = .next t) (hi : s.initialized = false)
    (ht : t.initialized = true) : ∃ (p q : Pin) (d : Delay), 500 ≤ d.toNat ∧ acceptsInit s p q d := by
  cases hr : rstAsserted s with
  | true => rw [step_initialized_of_reset hr h] at ht; cases ht
  | false =>
    rcases step_initialized_cases hr h with hk | ⟨-, ha⟩
    · rw [hk, hi] at ht; cases ht
    · exact ha

/-! ## The statements -/

/-- Settles O41: the inversion of a step shows that an accepted legal INIT is the only action that sets `initialized` and
hardware reset the only one that clears it; the two operations answer for the rest. -/
theorem initializedIsSetByInitOnly : Obligations.InitializedIsSetByInitOnly := by
  refine ⟨rfl, ?initSets, ?kept, ?setByInit, ?earlySend⟩
  case initSets =>
    intro p q d s t hp hd h
    obtain rfl := Host.Outcome.next.inj ((exec_init_of_legal hp hd).symm.trans h)
    simp
  case kept =>
    intro s t hr h hi
    exact step_keeps_initialized (noReset_one.1 hr) h hi
  case setByInit =>
    intro s t h hi ht
    obtain ⟨p, q, d, hd, ha⟩ := acceptsInit_of_step_sets_initialized h hi ht
    obtain ⟨-, hp, -, -⟩ := id ha
    exact ⟨hp, p, q, d, hd, ha⟩
  case earlySend =>
    intro c house device s hp hi h1 h16
    exact ⟨_, exec_send_of_uninitialized hp hi h1 h16, raiseError_err _ _⟩

/-- STATUS reads 0 after reset: every field of it has code 0 there (10_state R30, R38). -/
theorem reset_status : State.reset.status = 0#13 := by decide

/-- The lines are not driven after reset (10_state R35, R38). -/
theorem reset_linesO : State.reset.ports.linesO = none := rfl

/-- Settles O38: each register is a field of the reset state as written; STATUS and the line outputs are computed from
them. -/
theorem resetStateHasTheTablesValues : Obligations.ResetStateHasTheTablesValues :=
  ⟨rfl, rfl, rfl, rfl, rfl, rfl, rfl, rfl, rfl, rfl, rfl, reset_status, reset_linesO⟩

end Sys2Proof.Machine
end

section
/-! The Encoder (40_encoder R79, R92, R93): the bytes of a framed message, `Encode` on valid operands as one framed OR, and
the three statements assembled from that. -/

namespace Sys2Proof.Machine

/-! ## The bytes of a framed message -/

/-- The two header bytes and the footer byte stand around any data (40_encoder R92). -/
theorem frameMessage_frameBytes (data : Pattern) :
    (frameMessage data).extractLsb' 32 8 = 0xD5#8 ∧ (frameMessage data).extractLsb' 24 8 = 0xAA#8
    ∧ (frameMessage data).extractLsb' 0 8 = 0xAD#8 := by
  obtain ⟨h0, h1, -, -, h4⟩ :=
    extract_append Config.hdr0 Config.hdr1 (data.extractLsb' 8 8) (data.extractLsb' 0 8) Config.ftr
  exact ⟨h0, h1, h4⟩

/-- The data come out of the frame unchanged: the constant of `messageOf` is 0 in bits 23:8, where the data stand
(20_memory R47, R48). -/
theorem frameMessage_dataBytes (data : Pattern) : (frameMessage data).extractLsb' 8 16 = data := by
  have hframe : (0xD5AA0000AD#40).extractLsb' 8 16 = 0#16 := by decide
  have hdata : (data.setWidth 40 <<< 8).extractLsb' 8 16 = data := by
    ext i hi
    have hi8 : 8 + i < 40 := by omega
    simp [hi, hi8]
  rw [frameMessage_eq_messageOf, messageOf, BitVec.extractLsb'_or, hframe, hdata, BitVec.zero_or]

/-! ## `Encode` on valid operands -/

/-- `encodeMessage_eq` in the form of R79, with the five bytes in place of one number. -/
theorem encodeMessage_eq_frameMessage (t : Tables) (h d : Fin 16) (c : Fin 8) :
    encodeMessage t h.val (d.val + 1) c.val
      = some (frameMessage (t.house[h] ||| (if c.val = 0 ∨ c.val = 1 then t.device[d] else 0#16) ||| t.cmd[c])) := by
  rw [encodeMessage_eq, frameMessage_eq_messageOf]

/-- `Encode` of On and Off (40_encoder R93). -/
theorem encodeMessage_of_usesDevice (t : Tables) (h d : Fin 16) {c : Fin 8} (hc : usesDevice c.val) :
    encodeMessage t h.val (d.val + 1) c.val = some (frameMessage (t.house[h] ||| t.device[d] ||| t.cmd[c])) := by
  rw [encodeMessage_eq_frameMessage, if_pos hc]

/-- `Encode` of the other six commands: the device occurs on the left only (40_encoder R93). -/
theorem encodeMessage_of_not_usesDevice (t : Tables) (h d : Fin 16) {c : Fin 8} (hc : ¬ usesDevice c.val) :
    encodeMessage t h.val (d.val + 1) c.val = some (frameMessage (t.house[h] ||| t.cmd[c])) := by
  rw [encodeMessage_eq_frameMessage, if_neg hc, BitVec.or_zero]

/-! ## The statements -/

/-- Settles O7: invalid operands fail the one check of `Encode`; for valid ones it frames the OR of the patterns read. -/
theorem encodeComposesTheMessage : Obligations.EncodeComposesTheMessage := by
  refine fun t => ⟨?invalid, ?valid⟩
  case invalid =>
    intro house device command hbad
    have hv : ¬ validOperands house device command := by omega
    exact encodeMessage_invalid hv
  case valid =>
    exact encodeMessage_eq_frameMessage t

/-- Settles O8: valid operands give a framed message, and framing fixes the header and footer bytes whatever the data. -/
theorem everyMessageIsFramed : Obligations.EveryMessageIsFramed := by
  intro t house device command hh h1 h16 hc
  exact ⟨_, encodeMessage_valid ⟨hh, h1, h16, hc⟩, frameMessage_frameBytes _⟩

/-- Settles O9: framing keeps the data, which holds the device pattern for On and Off only; for the other commands both
devices give the same framed OR. -/
theorem dataBytesOfEachCommand : Obligations.DataBytesOfEachCommand := by
  refine fun t h d d' c => ⟨?onOff, ?others⟩
  case onOff =>
    intro hc
    have hu : usesDevice c.val := by omega
    exact ⟨_, encodeMessage_of_usesDevice t h d hu, frameMessage_dataBytes _⟩
  case others =>
    intro hc
    have hu : ¬ usesDevice c.val := by omega
    refine ⟨⟨_, encodeMessage_of_not_usesDevice t h d hu, frameMessage_dataBytes _⟩, ?_⟩
    rw [encodeMessage_of_not_usesDevice t h d hu, encodeMessage_of_not_usesDevice t h d' hu]

end Sys2Proof.Machine
end

section
/-! The Transmitter (41_transmitter R98, R99, R102 to R104): the bits of a message and their symbols, the end of a dwell
whose line write succeeds, and the five statements assembled from that. -/

namespace Sys2Proof.Machine

/-! ## The bits of a message and their symbols -/

/-- Bit `k` of a message byte, as a bit of the message (20_memory R47). -/
theorem msgByte_getLsbD (m : Message) (j : Nat) {k : Nat} (hk : k < 8) :
    (msgByte m j).getLsbD k = m.getLsbD (8 * (4 - j) + k) := by
  simp [msgByte, hk]

/-- `BitOf` goes through the bytes in order, each from its most significant bit (41_transmitter R98). -/
theorem bitOf_eq_msgByte (m : Message) {i : Nat} (hi : i < 40) :
    bitOf m i = (msgByte m (i / 8)).getLsbD (7 - i % 8) := by
  have hpos : 8 * (4 - i / 8) + (7 - i % 8) = 39 - i := by omega
  rw [msgByte_getLsbD m _ (by omega), hpos, bitOf]

/-- The first bit of a framed message is the most significant bit of `HDR0` = D5 (40_encoder R92). -/
theorem bitOf_zero_of_msgFramed {m : Message} (h : msgFramed m = true) : bitOf m 0 = true := by
  simp only [msgFramed, Bool.and_eq_true, beq_iff_eq] at h
  obtain ⟨⟨hhdr, -⟩, -⟩ := h
  rw [bitOf_eq_msgByte m (by omega), hhdr]
  decide

/-- The first data symbol of a framed message (41_transmitter R102). -/
theorem dataSymbol_zero_of_msgFramed {m : Message} (h : msgFramed m = true) : dataSymbol m 0 = .logical1 := by
  rw [dataSymbol, bitOf_zero_of_msgFramed h]; rfl

/-! ## What a phase holds -/

theorem heldLine_of_settle {s : State} (hp : s.phase = .settle) : heldLine s = some .standby := by
  simp [heldLine, hp]

theorem heldLine_of_data {s : State} (hp : s.phase = .data) :
    heldLine s = some (dataSymbol s.msg s.bitIdx.toNat) := by
  simp [heldLine, hp]

theorem heldLine_of_gap {s : State} (hp : s.phase = .gap) : heldLine s = some .standby := by
  simp [heldLine, hp]

/-- Between two steps `dwell` is the whole duration of the phase `s` is in (10_state R22). -/
theorem Inv.dwell_of_phase {s : State} {p : Phase} (hI : Inv s) (hp : s.phase = p) :
    s.dwell = phaseDuration p s.config.bitDelay :=
  hp ▸ hI.dwell_eq

/-! ## The end of a dwell whose line write succeeds -/

/-- The hold of phase `p` has passed in `s`, `bit_idx` has become `b`, the write of `ls` has succeeded and phase `q` has
been entered: what the ends of RESET, SETTLE, DATA and GAP have in common (41_transmitter R101 to R104). -/
theorem lineWrite_endHold {s : State} {p : Phase} (hp : s.phase = p) (hf : noLineFault 1 s) (ls : LineState)
    (q : Phase) (b : BitVec 6) :
    lineWrite ls (enterPhase q) { endHold s with bitIdx := b } =
      { s with
        rts := lineRts ls, dtr := lineDtr ls, bitIdx := b
        phase := q, dwell := phaseDuration q s.config.bitDelay
        trace := s.trace ++ [.held (phaseDuration p s.config.bitDelay).toNat, .wrote ls]
        lineFaults := s.lineFaults.tail, wireKnown := true } := by
  have hok : lineFault Config.hasLineFault { endHold s with bitIdx := b } = false := lineFault_of_noLineFault hf
  rw [lineWrite_succeeds hok]
  simp [enterPhase, lineWritten, endHold, hp]

/-- The end of GAP after the last bit-cell writes no line (41_transmitter R104). -/
theorem lastCell_of_gap {s : State} (hp : s.phase = .gap) :
    lastCell s =
      { s with
        phase := .quiet, dwell := Config.tQuiet
        trace := s.trace ++ [.held s.config.bitDelay.toNat] } := by
  simp [lastCell, enterPhase, endHold, hp, phaseDuration]

/-! ## The statements -/

/-- Settles O4: bit-cell `i` is a bit of the message by definition, and the byte and the bit in it that stand at that
position are found by dividing by 8. -/
theorem bitCellCarriesMsbFirstBit : Obligations.BitCellCarriesMsbFirstBit :=
  fun m _ hi => ⟨rfl, bitOf_eq_msgByte m hi, rfl⟩

/-- Settles O5: `{b, ~b}` as a pair of levels, for both bits (30_encoding R68). -/
theorem stateOfBitIsTheDataSymbol : Obligations.StateOfBitIsTheDataSymbol :=
  ⟨rfl, rfl, rfl, rfl, rfl, rfl, rfl, rfl⟩

/-- Settles O26: the invariant gives what SETTLE holds and that the message is framed, so the symbol written is
Logical-1. -/
theorem settlePhaseLeadsToFirstBit : Obligations.SettlePhaseLeadsToFirstBit := by
  intro s hI hp hf
  have hframed : msgFramed s.msg = true := hI.busy_framed (by simp [hp])
  have hsym : dataSymbol s.msg 0 = .logical1 := dataSymbol_zero_of_msgFramed hframed
  refine ⟨hI.held_lines _ (heldLine_of_settle hp), hI.dwell_of_phase hp, hsym, ?_⟩
  rw [endOfDwell_settle hp, endSettle, hsym, lineWrite_endHold hp hf]
  rfl

/-- Settles O27: the invariant gives what DATA holds and that `bit_idx` is in range, so the phase ends with its write. -/
theorem dataPhaseLeadsToGap : Obligations.DataPhaseLeadsToGap := by
  intro s hI hp hf
  refine ⟨hI.held_lines _ (heldLine_of_data hp), hI.dwell_of_phase hp, ?_⟩
  rw [endOfDwell_data hp hI.bitIdx_le]
  exact congrArg Host.Outcome.next (lineWrite_endHold hp hf .standby .gap s.bitIdx)

/-- Settles O28: the invariant gives what GAP holds; its end writes the next symbol below bit 39 and nothing after it. -/
theorem gapPhaseLeadsToNextBitOrQuiet : Obligations.GapPhaseLeadsToNextBitOrQuiet := by
  intro s hI hp
  refine ⟨hI.held_lines _ (heldLine_of_gap hp), hI.dwell_of_phase hp, ?nextBit, ?quiet⟩
  case nextBit =>
    intro hlt hf
    rw [endOfDwell_gap hp hlt, nextCell, lineWrite_endHold hp hf]
    rfl
  case quiet =>
    intro hlast
    rw [endOfDwell_lastGap hp hlast, lastCell_of_gap hp]
    rfl

end Sys2Proof.Machine
end

section
/-! The words of the channels (30_encoding R60, R64, R72) and of STATUS (10_state R30): decoding and encoding undo each
other, and every field is read back from the word it was put in. -/

namespace Sys2Proof.Machine

/-! ## Decoding what was encoded -/

/-- The fields of a `CW12` give back the command and its operands. -/
theorem decodeCmd_cmdWord (c : Command) (house : BitVec 4) (device : BitVec 5) :
    decodeCmd (cmdWord c house device) = sendInstr c house device := by
  obtain ⟨hcommand, hdevice, hhouse⟩ := cmdWord_fields c house device
  rw [decodeCmd_eq, hcommand, hdevice, hhouse, commandOfField_commandField]

/-- The fields of an `IW36` give back the operands of INIT. -/
theorem decodeInit_initWord (p q : Pin) (d : Delay) : decodeInit (initWord p q d) = .init p q d := by
  obtain ⟨hdelay, hdtr, hrts⟩ := initWord_fields p q d
  rw [decodeInit, hrts, hdtr, hdelay]

theorem decode_encode (i : Instr) : decode (encode i) = i := by
  rcases instr_cases i with ⟨c, house, device, rfl⟩ | ⟨p, q, d, rfl⟩
  · rw [encode_sendInstr]; exact decodeCmd_cmdWord c house device
  · exact decodeInit_initWord p q d

/-- The bytes of an instruction are read as the word they were made from: it fits its channel (log 16). -/
theorem decodeBytes_encodeBytes (i : Instr) : decodeBytes (encodeBytes i) = .ok (decode (encode i)) := by
  unfold encodeBytes
  cases encode i with
  | cmd w => simp only [decodeBytes_cmd w.isLt, BitVec.ofNat_toNat, BitVec.setWidth_eq, decode]
  | init w => simp only [decodeBytes_init w.isLt, BitVec.ofNat_toNat, BitVec.setWidth_eq, decode]

/-! ## The fields of STATUS -/

/-- The fields of a 13-bit word put together from two bits and fields of 2, 3 and 6 bits. -/
theorem extract_status_fields (i b : Bool) (e : BitVec 2) (p : BitVec 3) (x : BitVec 6) :
    let w : BitVec (1 + 1 + 2 + 3 + 6) := BitVec.ofBool i ++ BitVec.ofBool b ++ e ++ p ++ x
    w.getLsbD 12 = i ∧ w.getLsbD 11 = b ∧ w.extractLsb' 9 2 = e ∧ w.extractLsb' 6 3 = p ∧ w.extractLsb' 0 6 = x := by
  refine ⟨?_, ?_, ?_, ?_, ?_⟩
  case refine_1 => simp only [BitVec.getLsbD_append]; simp
  case refine_2 => simp only [BitVec.getLsbD_append]; simp
  all_goals
    ext j hj
    simp only [BitVec.getElem_extractLsb', BitVec.getLsbD_append]
    interval_cases j <;> simp [BitVec.getLsbD_eq_getElem]

/-! ## The statements -/

/-- Settles O1: every instruction is INIT or a command of SEND, whose word gives its fields back; and the bytes of a word
give the word back. -/
theorem decodeOfEncodeIsTheInstruction : Obligations.DecodeOfEncodeIsTheInstruction :=
  fun i => ⟨decode_encode i, (decodeBytes_encodeBytes i).trans (congrArg Except.ok (decode_encode i))⟩

/-- Settles O2: a word of either channel is put together from the fields it decodes to. -/
theorem encodeOfDecodeIsTheWord : Obligations.EncodeOfDecodeIsTheWord := by
  intro w
  cases w with
  | cmd w => rw [decode, decodeCmd_eq, encode_sendInstr, cmdWord_of_fields]
  | init w => exact congrArg PortWord.init (initWord_of_fields w)

/-- Settles O3: the ten words, each decoded. -/
theorem specWordsDecode : Obligations.SpecWordsDecode := by
  unfold Obligations.SpecWordsDecode
  decide

/-- Settles O6: the fields of STATUS stand one after another in its word, and the codes are those of the two tables. -/
theorem statusShowsItsFields : Obligations.StatusShowsItsFields := by
  intro s
  obtain ⟨hinit, hbusy, herr, hphase, hbit⟩ :=
    extract_status_fields s.initialized (decide s.busy) (errBits s.err) (phaseCode s.phase) s.bitIdx
  exact ⟨hinit, hbusy, herr, hphase, hbit, rfl, rfl, rfl, rfl, rfl, rfl, rfl, rfl, rfl, rfl⟩

end Sys2Proof.Machine
end

section
/-! The tables (20_memory R45) and the Encoder over them (40_encoder R83, R95, R96): the OR of patterns that share no bit is
their sum, and from the OR of default patterns each is read back by its mask. -/

namespace Sys2Proof.Machine

/-! ## Table reads -/

theorem tableReads_invalid {house device command : Nat} (h : ¬ validOperands house device command) :
    tableReads house device command = [] :=
  dif_neg h

/-- The table reads of valid operands, in order (40_encoder R95). -/
theorem tableReads_valid (h d : Fin 16) (c : Fin 8) :
    tableReads h.val (d.val + 1) c.val =
      if c.val ≤ 1 then [.house h, .device d, .cmd c] else [.house h, .cmd c] := by
  have hv : validOperands h.val (d.val + 1) c.val := ⟨by omega, by omega, by omega, by omega⟩
  rw [tableReads, dif_pos hv]
  by_cases hc : c.val ≤ 1
  · have hu : usesDevice c.val := by omega
    rw [if_pos hc, if_pos hu]; rfl
  · have hu : ¬ usesDevice c.val := by omega
    rw [if_neg hc, if_neg hu]; rfl

/-! ## Patterns that share no bit -/

/-- Words that share no bit are added without a carry. -/
theorem toNat_or_of_and_eq_zero {n : Nat} {a b : BitVec n} (h : a &&& b = 0#n) :
    (a ||| b).toNat = a.toNat + b.toNat := by
  rw [← BitVec.add_eq_or_of_and_eq_zero _ _ h, BitVec.toNat_add_of_and_eq_zero h]

/-- What constraint 2 of 20_memory R45 says of the entries one message reads. -/
theorem and_eq_zero_of_lawful {t : Tables} (ht : Tables.lawful t = true) (h d : Fin 16) (c : Fin 8) :
    t.house[h] &&& t.cmd[c] = 0#16 ∧ t.house[h] &&& t.device[d] = 0#16
    ∧ (c.val ≤ 1 → t.device[d] &&& t.cmd[c] = 0#16) := by
  simp only [Tables.lawful, Tables.lossless, Bool.and_eq_true, List.all_eq_true, beq_iff_eq] at ht
  obtain ⟨-, ⟨hhc, hhd⟩, hdc⟩ := ht
  refine ⟨hhc _ (by simp) _ (by simp), hhd _ (by simp) _ (by simp), fun hc => hdc _ (by simp) _ ?_⟩
  exact List.mem_take_iff_getElem.2 ⟨c.val, by simp; omega, rfl⟩

/-! ## Reading the default patterns back -/

/-- What device and command put into a message of the default tables. -/
def deviceCommandBits (d : Fin 16) (c : Fin 8) : Pattern :=
  (if c.val = 0 ∨ c.val = 1 then lut.device[d] else 0#16) ||| lut.cmd[c]

/-- The command pattern in the data of a message of the default tables: bit 7 tells the commands without a device from On
and Off, whose one bit no device has. -/
def commandPattern (data : Pattern) : Pattern :=
  if data.getLsbD 7 then data &&& 0x00FF#16 else data &&& 0x0020#16

/-- A default house pattern stands in the upper four bits (20_memory R45). -/
theorem default_house_mask (h : Fin 16) :
    lut.house[h] &&& 0xF000#16 = lut.house[h] ∧ lut.house[h] &&& 0x0FFF#16 = 0#16 := by
  revert h; decide

/-- What device and command put in stands in the lower twelve. -/
theorem deviceCommandBits_mask (d : Fin 16) (c : Fin 8) :
    deviceCommandBits d c &&& 0xF000#16 = 0#16 ∧ deviceCommandBits d c &&& 0x0FFF#16 = deviceCommandBits d c := by
  revert d c; decide

theorem commandPattern_deviceCommandBits (d : Fin 16) (c : Fin 8) :
    commandPattern (deviceCommandBits d c) = lut.cmd[c] := by
  revert d c; decide

theorem deviceCommandBits_device (d : Fin 16) (c : Fin 8) :
    c.val ≤ 1 → deviceCommandBits d c &&& 0x0458#16 = lut.device[d] := by
  revert d c; decide

theorem default_house_injective : ∀ h h' : Fin 16, lut.house[h] = lut.house[h'] → h = h' := by decide

theorem default_device_injective : ∀ d d' : Fin 16, lut.device[d] = lut.device[d'] → d = d' := by decide

theorem default_cmd_injective : ∀ c c' : Fin 8, lut.cmd[c] = lut.cmd[c'] → c = c' := by decide

/-- The house and the rest of a message of the default tables, each read back by its mask. -/
theorem default_data_mask (h d : Fin 16) (c : Fin 8) :
    (lut.house[h] ||| deviceCommandBits d c) &&& 0xF000#16 = lut.house[h]
    ∧ (lut.house[h] ||| deviceCommandBits d c) &&& 0x0FFF#16 = deviceCommandBits d c := by
  obtain ⟨hhouse, hhouse0⟩ := default_house_mask h
  obtain ⟨hrest0, hrest⟩ := deviceCommandBits_mask d c
  rw [BitVec.and_or_distrib_right, BitVec.and_or_distrib_right, hhouse, hhouse0, hrest0, hrest, BitVec.or_zero,
    BitVec.zero_or]
  exact ⟨rfl, rfl⟩

/-- The message of the default tables, its data cut after the house pattern. -/
theorem encodeMessage_default (h d : Fin 16) (c : Fin 8) :
    encodeMessage lut h.val (d.val + 1) c.val = some (frameMessage (lut.house[h] ||| deviceCommandBits d c)) := by
  rw [encodeMessage_eq_frameMessage, deviceCommandBits, BitVec.or_assoc]

theorem frameMessage_injective {a b : Pattern} (h : frameMessage a = frameMessage b) : a = b := by
  rw [← frameMessage_dataBytes a, h, frameMessage_dataBytes]

/-! ## The statements -/

/-- Settles O10: valid operands pass the one check and read a list that `UsesDevice` decides. -/
theorem tableReadsOfOneSend : Obligations.TableReadsOfOneSend := by
  refine ⟨fun house device command hbad => ?_, tableReads_valid⟩
  have hv : ¬ validOperands house device command := by omega
  exact tableReads_invalid hv

/-- Settles O11: both constraints and the three masks are checked entry by entry. -/
theorem defaultTablesAreLawful : Obligations.DefaultTablesAreLawful := by
  unfold Obligations.DefaultTablesAreLawful
  decide

/-- Settles O12: constraint 2 of R45 leaves no bit that two of the patterns read share. -/
theorem orOfLawfulPatternsIsTheirSum : Obligations.OrOfLawfulPatternsIsTheirSum := by
  intro t h d c ht
  obtain ⟨hhc, hhd, hdc⟩ := and_eq_zero_of_lawful ht h d c
  rw [composeData_tableReads]
  by_cases hc : c.val ≤ 1
  · have hu : c.val = 0 ∨ c.val = 1 := by omega
    have hor : (t.house[h] ||| t.device[d]) &&& t.cmd[c] = 0#16 := by
      rw [BitVec.and_or_distrib_right, hhc, hdc hc, BitVec.or_zero]
    rw [if_pos hu, if_pos hc, toNat_or_of_and_eq_zero hor, toNat_or_of_and_eq_zero hhd]
  · have hu : ¬ (c.val = 0 ∨ c.val = 1) := by omega
    rw [if_neg hu, if_neg hc, BitVec.or_zero, toNat_or_of_and_eq_zero hhc]; rfl

/-- Settles O13: the data of a message gives back the house pattern, the command pattern and, for On and Off, the device
pattern, and no default table holds a pattern twice. -/
theorem defaultMessagesAreDistinct : Obligations.DefaultMessagesAreDistinct := by
  intro h h' d d' c c' heq
  rw [encodeMessage_default, encodeMessage_default] at heq
  have hdata := frameMessage_injective (Option.some.inj heq)
  obtain ⟨hhouse, hrest⟩ := default_data_mask h d c
  rw [hdata] at hhouse hrest
  obtain ⟨hhouse', hrest'⟩ := default_data_mask h' d' c'
  have hbits : deviceCommandBits d c = deviceCommandBits d' c' := hrest.symm.trans hrest'
  have hc : c = c' := default_cmd_injective c c' (by
    rw [← commandPattern_deviceCommandBits d c, hbits, commandPattern_deviceCommandBits])
  refine ⟨default_house_injective h h' (hhouse.symm.trans hhouse'), hc, fun hle => ?_⟩
  apply default_device_injective
  rw [← deviceCommandBits_device d c hle, hbits, deviceCommandBits_device d' c' (hc ▸ hle)]

end Sys2Proof.Machine
end

section
/-! The operations (40_encoder R84 to R91, 42_command_surface R124 to R129, 60_exceptions R142 to R152): one equation for
each way an accepted operation can go, and the statements as instances of these. -/

namespace Sys2Proof.Machine

/-! ## SEND -/

/-- A SEND with an illegal device in IDLE raises InvalidArgument, initialised or not (60_exceptions R142, R147). -/
theorem exec_send_of_illegal {c : Command} {house : BitVec 4} {device : BitVec 5} {s : State} (hp : s.phase = .idle)
    (hd : device.toNat = 0 ∨ 16 < device.toNat) :
    exec (sendInstr c house device) s = .next (raiseError .errInvalidArgument s) := by
  rw [exec_sendInstr]
  rcases send_cases lut c house device s with ⟨hb, -⟩ | ⟨-, -, he⟩ | ⟨-, h1, h16, -⟩ | ⟨-, h1, h16, -⟩
  · exact absurd hp hb
  · rw [he]
  · omega
  · omega

/-- A SEND with a legal device in IDLE after an INIT stores its message and starts (42_command_surface R129). -/
theorem exec_send_of_initialized {c : Command} {house : BitVec 4} {device : BitVec 5} {s : State}
    (hp : s.phase = .idle) (hi : s.initialized = true) (h1 : 1 ≤ device.toNat) (h16 : device.toNat ≤ 16) :
    ∃ m, encodeMessage lut house.toNat device.toNat (commandIndex c) = some m
      ∧ exec (sendInstr c house device) s = .next (startTransmit { s with msg := m }) := by
  rw [exec_sendInstr]
  rcases send_cases lut c house device s with ⟨hb, -⟩ | ⟨-, hd, -⟩ | ⟨-, -, -, hi', -⟩ | ⟨-, -, -, -, m, hm, -, he⟩
  · exact absurd hp hb
  · omega
  · simp [hi] at hi'
  · exact ⟨m, hm, congrArg _ he⟩

/-- StartTransmit whose Reset write succeeds (41_transmitter R101). -/
theorem startTransmit_eq_sendStarted {s : State} (hf : noLineFault 1 s) : startTransmit s = sendStarted s.msg s := by
  rw [startTransmit, lineWrite_succeeds (lineFault_of_noLineFault hf)]
  rfl

/-- StartTransmit whose Reset write fails (41_transmitter R110). -/
theorem startTransmit_of_fault {s : State} (hf : lineFaultAfter 0 s) : startTransmit s = lineFailed .reset s :=
  lineWrite_fails (lineFault_of_lineFaultAfter_zero hf)

/-- StartTransmit raises no error but LineWriteError (60_exceptions R144). -/
theorem startTransmit_rsp_ne {s : State} (h : s.rsp = none) :
    (startTransmit s).rsp ≠ some .errInvalidArgument := by
  rcases lineWrite_cases .reset (enterPhase .reset) s with ⟨-, hw⟩ | ⟨-, hw⟩
  · rw [startTransmit, hw]; simp [lineWritten, h]
  · rw [startTransmit, hw]; simp [lineFailed]

/-- An error with no other effect, as the statements write it (60_exceptions R150). -/
theorem raiseError_eq_erredAtOnce (e : ErrCode) (s : State) : raiseError e s = erredAtOnce e s := rfl

/-- In IDLE at rest an error is a completion with it: phase and dwell have their values already. -/
theorem raiseError_of_idle {e : ErrCode} {s : State} (hp : s.phase = .idle) (hd : s.dwell = 0#20) :
    raiseError e s = complete e s := by
  rw [raiseError, ← hp, ← hd]; rfl

/-- The eight instructions of SEND with these operands. -/
theorem eq_sendInstr_of_mem {house : BitVec 4} {device : BitVec 5} {i : Instr}
    (h : i ∈ [Instr.on house device, .off house device, .bright house device, .dim house device,
      .allOff house device, .allOn house device, .lampsOff house device, .lampsOn house device]) :
    ∃ c, i = sendInstr c house device := by
  simp only [List.mem_cons, List.not_mem_nil, or_false] at h
  rcases h with rfl | rfl | rfl | rfl | rfl | rfl | rfl | rfl
  · exact ⟨.on, rfl⟩
  · exact ⟨.off, rfl⟩
  · exact ⟨.bright, rfl⟩
  · exact ⟨.dim, rfl⟩
  · exact ⟨.allOff, rfl⟩
  · exact ⟨.allOn, rfl⟩
  · exact ⟨.lampsOff, rfl⟩
  · exact ⟨.lampsOn, rfl⟩

theorem wellFormed_sendInstr (c : Command) (house : BitVec 4) (device : BitVec 5) :
    WellFormed (sendInstr c house device) = deviceLegal device := by
  cases c <;> rfl

/-! ## The message a SEND stores -/

theorem toList_getD_of_fin {n : Nat} (v : Vector Pattern n) (i : Fin n) : v.toList.getD i.val 0#16 = v[i] := by
  simp

/-- The message of a command with a legal device over the default tables (40_encoder R79). -/
theorem encodeMessage_lut (c : Command) (house : BitVec 4) {device : BitVec 5} (h1 : 1 ≤ device.toNat)
    (h16 : device.toNat ≤ 16) :
    encodeMessage lut house.toNat device.toNat (commandIndex c)
      = some (messageOf (houseLut.toList.getD house.toNat 0#16
          ||| (if usesDevice (commandIndex c) then deviceLut.toList.getD (device.toNat - 1) 0#16 else 0#16)
          ||| cmdLut.toList.getD (commandIndex c) 0#16)) := by
  have hc : commandIndex c < 8 := by cases c <;> decide
  have he := encodeMessage_eq lut ⟨house.toNat, house.isLt⟩ ⟨device.toNat - 1, by omega⟩ ⟨commandIndex c, hc⟩
  simp only [Nat.sub_add_cancel h1, ← toList_getD_of_fin] at he
  exact he

/-- A legal SEND in IDLE after an INIT, its Reset write succeeding (42_command_surface R129, 41_transmitter R101). -/
theorem exec_send_starts {c : Command} {house : BitVec 4} {device : BitVec 5} {s : State} {m : Message}
    (hp : s.phase = .idle) (hi : s.initialized = true) (h1 : 1 ≤ device.toNat) (h16 : device.toNat ≤ 16)
    (hf : noLineFault 1 s) (hm : encodeMessage lut house.toNat device.toNat (commandIndex c) = some m) :
    exec (sendInstr c house device) s = .next (sendStarted m s) := by
  obtain ⟨m', hm', he⟩ := exec_send_of_initialized (c := c) (house := house) hp hi h1 h16
  obtain rfl : m' = m := Option.some.inj (hm'.symm.trans hm)
  rw [he, startTransmit_eq_sendStarted (s := { s with msg := m' }) hf]
  rfl

/-- The commands that ignore the device: the message is that of house and command (40_encoder R86 to R91). -/
theorem exec_house_command_starts {c : Command} {house : BitVec 4} {device : BitVec 5} {s : State}
    (hc : ¬ usesDevice (commandIndex c)) (hp : s.phase = .idle) (hi : s.initialized = true) (h1 : 1 ≤ device.toNat)
    (h16 : device.toNat ≤ 16) (hf : noLineFault 1 s) :
    exec (sendInstr c house device) s = .next (sendStarted (messageOf (houseLut.toList.getD house.toNat 0#16
      ||| cmdLut.toList.getD (commandIndex c) 0#16)) s) := by
  have hm := encodeMessage_lut c house h1 h16
  rw [if_neg hc, BitVec.or_zero] at hm
  exact exec_send_starts hp hi h1 h16 hf hm

/-- On and Off: the message is that of house, device and command (40_encoder R84, R85). -/
theorem exec_device_command_starts {c : Command} {house : BitVec 4} {device : BitVec 5} {s : State}
    (hc : usesDevice (commandIndex c)) (hp : s.phase = .idle) (hi : s.initialized = true) (h1 : 1 ≤ device.toNat)
    (h16 : device.toNat ≤ 16) (hf : noLineFault 1 s) :
    exec (sendInstr c house device) s = .next (sendStarted (messageOf (houseLut.toList.getD house.toNat 0#16
      ||| deviceLut.toList.getD (device.toNat - 1) 0#16 ||| cmdLut.toList.getD (commandIndex c) 0#16)) s) := by
  have hm := encodeMessage_lut c house h1 h16
  rw [if_pos hc] at hm
  exact exec_send_starts hp hi h1 h16 hf hm

/-! ## INIT -/

/-- INIT with a short delay in IDLE raises InvalidArgument (42_command_surface R125). -/
theorem exec_init_of_short {p q : Pin} {d : Delay} {s : State} (hp : s.phase = .idle) (hd : d.toNat < 500) :
    exec (.init p q d) s = .next (raiseError .errInvalidArgument s) := by
  rcases execInit_cases p q d s with ⟨hb, -⟩ | ⟨-, -, he⟩ | ⟨-, hge, -⟩
  · exact absurd hp hb
  · exact he
  · omega

/-! ## The statements -/

/-- Settles O14: On is a command that uses the device, and its pattern is 0. -/
theorem onStartsItsTransmission : Obligations.OnStartsItsTransmission := by
  intro house device s hp hi h1 h16 hf
  have he := exec_device_command_starts (c := .on) (house := house) (by decide) hp hi h1 h16 hf
  have hon : cmdLut.toList.getD (commandIndex .on) 0#16 = 0#16 := by decide
  rwa [hon, BitVec.or_zero] at he

/-- Settles O15: Off is a command that uses the device, with pattern 0x0020. -/
theorem offStartsItsTransmission : Obligations.OffStartsItsTransmission :=
  fun _ _ _ hp hi h1 h16 hf => exec_device_command_starts (c := .off) (by decide) hp hi h1 h16 hf

/-- Settles O16: the other six commands do not use the device. -/
theorem houseCommandsStartTheirTransmission : Obligations.HouseCommandsStartTheirTransmission := by
  intro house device s hp hi h1 h16 hf
  have starts {c : Command} (hc : ¬ usesDevice (commandIndex c)) :=
    exec_house_command_starts (house := house) hc hp hi h1 h16 hf
  exact ⟨starts (c := .bright) (by decide), starts (c := .dim) (by decide), starts (c := .allOff) (by decide),
    starts (c := .allOn) (by decide), starts (c := .lampsOff) (by decide), starts (c := .lampsOn) (by decide)⟩

/-- Settles O17: the message is stored before the Reset write, whose failure is an error taken at once. -/
theorem failedResetWriteAbortsTheSend : Obligations.FailedResetWriteAbortsTheSend := by
  intro c house device s hp hi h1 h16 hf
  obtain ⟨m, hm, he⟩ := exec_send_of_initialized (c := c) (house := house) hp hi h1 h16
  refine ⟨m, hm, ?_⟩
  rw [he, startTransmit_of_fault (s := { s with msg := m }) hf]
  rfl

/-- Settles O18: the device is checked first, for every command. -/
theorem illegalDeviceRaisesInvalidArgument : Obligations.IllegalDeviceRaisesInvalidArgument := by
  intro house device s hp hd i hmem
  obtain ⟨c, rfl⟩ := eq_sendInstr_of_mem hmem
  rw [exec_send_of_illegal hp hd, raiseError_eq_erredAtOnce]

/-- Settles O19: with a legal device the flag `initialized` is checked next. -/
theorem sendBeforeInitRaisesNotInitialized : Obligations.SendBeforeInitRaisesNotInitialized := by
  intro house device s hp hi h1 h16 i hmem
  obtain ⟨c, rfl⟩ := eq_sendInstr_of_mem hmem
  rw [exec_send_of_uninitialized hp hi h1 h16, raiseError_eq_erredAtOnce]

/-- Settles O20: INIT stores LineConfig and enables the lines, which writes the registers only while `line_oe` is 0. -/
theorem initConfiguresAndCompletes : Obligations.InitConfiguresAndCompletes := by
  intro p q d s hp hd
  rw [exec_init_of_legal hp hd]
  cases hoe : s.lineOe <;> simp [complete, enableLines, configure, hoe]

/-- Settles O21: a short delay is an error in IDLE, where the invariant has phase and dwell at rest; the two boundary
values are legal. -/
theorem shortDelayInitRaisesInvalidArgument : Obligations.ShortDelayInitRaisesInvalidArgument := by
  refine ⟨?short, ?legal⟩
  case short =>
    intro p q d s hI hp hd
    rw [exec_init_of_short hp hd, raiseError_of_idle hp (hI.dwell_of_phase hp)]
    rfl
  case legal =>
    intro p q d s hp hd
    have hge : 500 ≤ d.toNat := by rcases hd with rfl | rfl <;> decide
    exact ⟨_, exec_init_of_legal hp hge, rfl, by simp⟩

/-- Settles O22: an ill-formed operation raises the error; a well-formed one completes with another result or goes on
without a pulse. -/
theorem invalidArgumentExactlyForIllFormed : Obligations.InvalidArgumentExactlyForIllFormed := by
  intro i s hp hrsp
  rcases instr_cases i with ⟨c, house, device, rfl⟩ | ⟨p, q, d, rfl⟩
  · rw [wellFormed_sendInstr]
    by_cases hd : 1 ≤ device.toNat ∧ device.toNat ≤ 16
    · obtain ⟨h1, h16⟩ := hd
      have hlegal : deviceLegal device = true := by simp [deviceLegal, h1, h16]
      cases hi : s.initialized with
      | false => exact ⟨_, exec_send_of_uninitialized hp hi h1 h16, by simp [hlegal]⟩
      | true =>
        obtain ⟨m, -, he⟩ := exec_send_of_initialized (c := c) (house := house) hp hi h1 h16
        have hne := startTransmit_rsp_ne (s := { s with msg := m }) hrsp
        exact ⟨_, he, by simp only [hne, hlegal, reduceCtorEq]⟩
    · have hillegal : deviceLegal device = false := by simp [deviceLegal]; omega
      exact ⟨_, exec_send_of_illegal hp (by omega), by simp [hillegal]⟩
  · by_cases hd : 500 ≤ d.toNat
    · exact ⟨_, exec_init_of_legal hp hd, by simp [WellFormed, delayLegal, hd]⟩
    · exact ⟨_, exec_init_of_short hp (by omega), by simp [WellFormed, delayLegal, hd]⟩

/-- Settles O23: every meaning waits for IDLE. -/
theorem busyMachineAcceptsNothing : Obligations.BusyMachineAcceptsNothing := by
  intro i s hb
  rcases instr_cases i with ⟨c, house, device, rfl⟩ | ⟨p, q, d, rfl⟩
  · rw [exec_sendInstr, send, whenIdle_of_busy hb]
  · simp only [exec, execInit, whenIdle_of_busy hb]

/-- Settles O24: the SEND raises one of its two errors, in IDLE, where the invariant has phase and dwell at rest. -/
theorem refusedSendChangesOnlyErr : Obligations.RefusedSendChangesOnlyErr := by
  intro c house device s hI hp hbad
  have hraise (e : ErrCode) : raiseError e s = complete e s := raiseError_of_idle hp (hI.dwell_of_phase hp)
  by_cases hd : device.toNat = 0 ∨ 16 < device.toNat
  · exact ⟨.errInvalidArgument, _, .inl rfl, exec_send_of_illegal hp hd, hraise _, by simp [hraise, State.initReady],
      by simp [hraise, State.cmdReady]⟩
  · have hi : s.initialized = false := by tauto
    exact ⟨.errNotInitialized, _, .inr rfl, exec_send_of_uninitialized hp hi (by omega) (by omega), hraise _,
      by simp [hraise, State.initReady], by simp [hraise, State.cmdReady]⟩

end Sys2Proof.Machine
end

section
/-! The end of a dwell (41_transmitter R101 to R110, R121): every end of a dwell that writes a line is one line write, so
that its success and its failure are said once. -/

namespace Sys2Proof.Machine

/-! ## The end of a dwell as one line write -/

/-- The phase a phase leads to (41_transmitter R107). -/
def nextPhase (s : State) : Phase :=
  match s.phase with
  | .idle => .idle
  | .reset => .settle
  | .settle => .data
  | .data => .gap
  | .gap => if s.bitIdx.toNat < 39 then .data else .quiet
  | .quiet => .idle

/-- Where a dwell ends with a write, its end is the hold, the assignment to `bit_idx`, the write and, if that succeeds, the
next phase (41_transmitter R101 to R104). -/
theorem endOfDwell_eq_lineWrite {s : State} {ls : LineState} (hi : s.phase = .data → s.bitIdx.toNat ≤ 39)
    (hw : nextWrite s = some ls) :
    endOfDwell s =
      .next (lineWrite ls (enterPhase (nextPhase s)) { endHold s with bitIdx := nextBitIdx s }) := by
  cases hp : s.phase with
  | idle => simp [nextWrite, hp] at hw
  | reset =>
    obtain rfl : LineState.standby = ls := by simpa [nextWrite, hp] using hw
    rw [endOfDwell_reset hp]; simp only [nextPhase, nextBitIdx, hp]; rfl
  | settle =>
    obtain rfl : dataSymbol s.msg 0 = ls := by simpa [nextWrite, hp] using hw
    rw [endOfDwell_settle hp]; simp only [nextPhase, nextBitIdx, hp]; rfl
  | data =>
    obtain rfl : LineState.standby = ls := by simpa [nextWrite, hp] using hw
    rw [endOfDwell_data hp (hi hp)]; simp only [nextPhase, nextBitIdx, hp]; rfl
  | gap =>
    have hlt : s.bitIdx.toNat < 39 := by by_contra hge; simp [nextWrite, hp, hge] at hw
    obtain rfl : dataSymbol s.msg (s.bitIdx.toNat + 1) = ls := by simpa [nextWrite, hp, hlt] using hw
    rw [endOfDwell_gap hp hlt]; simp only [nextPhase, nextBitIdx, hp, hlt]; rfl
  | quiet => simp [nextWrite, hp] at hw

/-- Below bit 39 the end of GAP writes the next symbol. -/
theorem nextWrite_of_gap {s : State} (hp : s.phase = .gap) (hi : s.bitIdx.toNat < 39) :
    nextWrite s = some (dataSymbol s.msg (s.bitIdx.toNat + 1)) := by
  simp [nextWrite, hp, hi]

/-- A line write leads to a phase of the transmission, never to IDLE. -/
theorem nextPhase_ne_idle {s : State} {ls : LineState} (hw : nextWrite s = some ls) : nextPhase s ≠ .idle := by
  cases hp : s.phase with
  | idle => simp [nextWrite, hp] at hw
  | reset => simp [nextPhase, hp]
  | settle => simp [nextPhase, hp]
  | data => simp [nextPhase, hp]
  | gap => simp only [nextPhase, hp]; split <;> decide
  | quiet => simp [nextWrite, hp] at hw

/-- Everything the end of a busy phase that answers `t` can have done: one line write, or one of the two ends without. -/
inductive DwellEnd (s t : State) : Prop where
  | writes (ls : LineState) (hw : nextWrite s = some ls) (hi : s.phase = .data → s.bitIdx.toNat ≤ 39)
      (ht : t = lineWrite ls (enterPhase (nextPhase s)) { endHold s with bitIdx := nextBitIdx s })
  | lastGap (hp : s.phase = .gap) (hi : s.bitIdx.toNat = 39) (ht : t = lastCell s)
  | quiet (hp : s.phase = .quiet) (ht : t = endQuiet s)

theorem endOfDwell_inv {s t : State} (hb : s.phase ≠ .idle) (h : endOfDwell s = .next t) : DwellEnd s t := by
  have writes {ls : LineState} (hw : nextWrite s = some ls) (hi : s.phase = .data → s.bitIdx.toNat ≤ 39) :
      DwellEnd s t :=
    .writes ls hw hi (Host.Outcome.next.inj (h.symm.trans (endOfDwell_eq_lineWrite hi hw)))
  rcases endOfDwell_cases hb h with ⟨hp, -⟩ | ⟨hp, -⟩ | ⟨hp, hi, -⟩ | ⟨hp, hi, -⟩ | ⟨hp, hi, ht⟩ | ⟨hp, ht⟩
  · exact writes (ls := .standby) (by simp [nextWrite, hp]) (by simp [hp])
  · exact writes (ls := dataSymbol s.msg 0) (by simp [nextWrite, hp]) (by simp [hp])
  · exact writes (ls := .standby) (by simp [nextWrite, hp]) (fun _ => hi)
  · exact writes (nextWrite_of_gap hp hi) (by simp [hp])
  · exact .lastGap hp hi ht
  · exact .quiet hp ht

/-- The hold has passed in `s`, `bit_idx` has become `b`, and the write of `ls` has failed (41_transmitter R110). -/
theorem lineWrite_endHold_fails {s : State} (hf : lineFaultAfter 0 s) (ls : LineState) (k : State → State)
    (b : BitVec 6) :
    lineWrite ls k { endHold s with bitIdx := b } =
      { s with
        rts := lineRts ls, dtr := lineDtr ls, bitIdx := b
        phase := .idle, dwell := 0#20
        err := .errLineWrite, rsp := some .errLineWrite
        responses := s.responses ++ [⟨s.now, .errLineWrite⟩]
        trace := s.trace ++ [.held (phaseDuration s.phase s.config.bitDelay).toNat, .failed ls]
        lineFaults := s.lineFaults.tail, wireKnown := false, wireDraws := s.wireDraws + 1 } := by
  have hfail : lineFault Config.hasLineFault { endHold s with bitIdx := b } = true :=
    lineFault_of_lineFaultAfter_zero hf
  rw [lineWrite_fails hfail]
  simp [lineFailed, endHold]

/-! ## What RESET and QUIET hold -/

theorem heldLine_of_reset {s : State} (hp : s.phase = .reset) : heldLine s = some .reset := by
  simp [heldLine, hp]

theorem heldLine_of_quiet {s : State} (hp : s.phase = .quiet) : heldLine s = some .standby := by
  simp [heldLine, hp]

/-! ## The statements -/

/-- Settles O25: the invariant gives what RESET holds; both writes succeed. -/
theorem resetPhaseLeadsToSettle : Obligations.ResetPhaseLeadsToSettle := by
  refine ⟨fun s hf => startTransmit_eq_sendStarted hf, fun s hI hp hf => ?_⟩
  refine ⟨hI.held_lines _ (heldLine_of_reset hp), hI.dwell_of_phase hp, ?_⟩
  rw [endOfDwell_reset hp]
  exact congrArg Host.Outcome.next (lineWrite_endHold hp hf .standby .settle s.bitIdx)

/-- Settles O29: the invariant gives what QUIET holds; its end writes no line and completes. -/
theorem quietPhaseCompletesTheSend : Obligations.QuietPhaseCompletesTheSend := by
  intro s hI hp
  refine ⟨hI.held_lines _ (heldLine_of_quiet hp), hI.dwell_of_phase hp, _, endOfDwell_quiet hp, ?next, ?before, ?after⟩
  case next => simp only [endQuiet, complete, endHold, hp]; rfl
  case before => simp [State.initReady, State.cmdReady, hp]
  case after => simp [State.initReady, State.cmdReady, endQuiet]

/-- Settles O30: every end of a dwell that writes is one line write, which fails. -/
theorem failedLineWriteAbortsTheTransmission : Obligations.FailedLineWriteAbortsTheTransmission := by
  intro s ls hi hw hf
  rw [endOfDwell_eq_lineWrite (fun _ => hi) hw, lineWrite_endHold_fails hf]

/-- Settles O55: the moves of both lines in each of the seven rows. -/
theorem eachWriteMovesTheLinesOfItsRow : Obligations.EachWriteMovesTheLinesOfItsRow := by
  unfold Obligations.EachWriteMovesTheLinesOfItsRow
  decide

end Sys2Proof.Machine
end

section
/-! The step (10_state R32 to R34, 42_command_surface R131 to R133, 70_reset_and_hazards R167): what it does with a waiting
offer, with none, while busy and in a reset, and where it stops. -/

namespace Sys2Proof.Machine

/-! ## A step that accepts a waiting offer -/

theorem beginStep_of_waiting {s : State} (h : s.initPort ≠ none ∨ s.cmdPort ≠ none) :
    beginStep s = { s with rsp := none, rstInputs := s.rstInputs.tail } := by
  rw [beginStep, loadPorts_of_waiting h]

/-- In IDLE a waiting INIT is accepted (10_state R32). -/
theorem step_of_waiting_init {s : State} {w : InitWord} (hr : rstAsserted s = false) (hp : s.phase = .idle)
    (hw : s.initPort = some w) :
    step s = exec (decodeInit w) { s with initPort := none, rsp := none, rstInputs := s.rstInputs.tail } := by
  rw [step_of_idle hr hp, beginStep_of_waiting (.inl (by simp [hw]))]
  exact acceptOffer_init hw

/-- In IDLE a waiting SEND is accepted where no INIT is offered (10_state R33). -/
theorem step_of_waiting_cmd {s : State} {c : CmdWord} (hr : rstAsserted s = false) (hp : s.phase = .idle)
    (hi : s.initPort = none) (hc : s.cmdPort = some c) :
    step s = exec (decodeCmd c) { s with cmdPort := none, rsp := none, rstInputs := s.rstInputs.tail } := by
  rw [step_of_idle hr hp, beginStep_of_waiting (.inr (by simp [hc]))]
  exact acceptOffer_cmd hi hc

/-- An INIT in IDLE leaves the sequencer in IDLE and the offers as they are, and answers as its delay is legal or not. -/
theorem exec_init_answer (p q : Pin) (d : Delay) {s : State} (hp : s.phase = .idle) :
    ∃ t, exec (.init p q d) s = .next t
      ∧ t.phase = .idle ∧ t.initPort = s.initPort ∧ t.cmdPort = s.cmdPort
      ∧ (500 ≤ d.toNat → t.config = ⟨p, q, d⟩ ∧ t.initialized = true ∧ t.err = .errNone)
      ∧ (d.toNat < 500 → t.config = s.config ∧ t.initialized = s.initialized ∧ t.err = .errInvalidArgument) := by
  by_cases hd : 500 ≤ d.toNat
  · exact ⟨_, exec_init_of_legal hp hd, by simp [hp], by simp, by simp, fun _ => by simp, fun hlt => by omega⟩
  · exact ⟨_, exec_init_of_short hp (by omega), rfl, rfl, rfl, fun hge => by omega, fun _ => ⟨rfl, rfl, rfl⟩⟩

/-! ## A word of the opcode table on its channel (log 3) -/

/-- The instruction a table row of 16 bits is read as. -/
theorem decodeTableWord_16 {w : Nat} {i : Instr} (hw : w < 2 ^ 16) (h : decodeTableWord 16 w = some i) :
    decodeCmd (BitVec.ofNat 12 w) = i := by
  have hn : natOfBytes (bytesOfNat 2 w) = w := natOfBytes_bytesOfNat (by omega)
  by_cases hlt : w < 4096
  · simpa [decodeTableWord, decodeBytes_cmd hlt] using h
  · simp [decodeTableWord, decodeBytes, hn, hlt] at h

/-- The instruction a table row of 40 bits is read as. -/
theorem decodeTableWord_40 {w : Nat} {i : Instr} (hw : w < 2 ^ 40) (h : decodeTableWord 40 w = some i) :
    decodeInit (BitVec.ofNat 36 w) = i := by
  have hn : natOfBytes (bytesOfNat 5 w) = w := natOfBytes_bytesOfNat (by omega)
  by_cases hlt : w < 68719476736
  · simpa [decodeTableWord, decodeBytes_init hlt] using h
  · simp [decodeTableWord, decodeBytes, hn, hlt] at h

/-- `rst` is not asserted in the step that takes an offered word. -/
theorem rstAsserted_offerWord (w : PortWord) (s : State) : rstAsserted (offerWord w s) = false := by
  change (if rstAsserted s then [] else s.rstInputs).headD false = false
  cases h : rstAsserted s with
  | false => exact h
  | true => rfl

/-- The reset samples left after that step. -/
theorem offerWord_rstInputs_tail (w : PortWord) (s : State) :
    (offerWord w s).rstInputs.tail = if s.rstInputs.headD false then [] else s.rstInputs.tail :=
  apply_ite List.tail (rstAsserted s = true) [] s.rstInputs

/-! ## Where a step stops (93_implementation_defined U9) -/

theorem step_stuck {s : State} (hr : rstAsserted s = false) (hp : s.phase = .data ∨ s.phase = .gap)
    (hi : 39 < s.bitIdx.toNat) : step s = .fault .bitIdxOutOfRange := by
  have hb : s.phase ≠ .idle := by rcases hp with hp | hp <;> simp [hp]
  rw [step_busy_eq hr hb, endOfDwell_stuck (s := phaseOverNow s) hp hi]

/-- Without reset a step answers a next state, unless it is stuck. -/
theorem step_total {s : State} (hr : rstAsserted s = false)
    (hi : s.phase = .data ∨ s.phase = .gap → s.bitIdx.toNat ≤ 39) : ∃ t, step s = .next t := by
  cases hp : s.phase with
  | idle => rw [step_of_idle hr hp]; exact acceptOffer_total _
  | reset => exact ⟨_, step_reset hr hp⟩
  | settle => exact ⟨_, step_settle hr hp⟩
  | data => exact ⟨_, step_data hr hp (hi (.inl hp))⟩
  | gap =>
    rcases (hi (.inr hp)).lt_or_eq with hlt | hlast
    · exact ⟨_, step_gap hr hp hlt⟩
    · exact ⟨_, step_lastGap hr hp hlast⟩
  | quiet => exact ⟨_, step_quiet hr hp⟩

/-! ## The statements -/

/-- Settles O31: an accepting step answers a next state, and so does the end of a dwell but where U9 says stuck. -/
theorem stepStopsOnlyOnBitIdxAbove39 : Obligations.StepStopsOnlyOnBitIdxAbove39 := by
  refine fun s => ⟨?_, fun hr => step_stuck (noReset_one.1 hr)⟩
  cases hr : rstAsserted s with
  | true => exact .inl ⟨_, step_of_reset hr⟩
  | false =>
    by_cases hU9 : (s.phase = .data ∨ s.phase = .gap) ∧ 39 < s.bitIdx.toNat
    · obtain ⟨hp, hi⟩ := hU9
      exact .inr ⟨step_stuck hr hp hi, hi, hp⟩
    · exact .inl (step_total hr fun hp => not_lt.1 fun hi => hU9 ⟨hp, hi⟩)

/-- Settles O32: the word of an instruction decodes to it, and a waiting offer is accepted in IDLE. -/
theorem stepRunsTheOfferedOperation : Obligations.StepRunsTheOfferedOperation := by
  intro i s hp hr
  have hr := noReset_one.1 hr
  refine ⟨fun w he hw => ?_, fun c he hi hc => ?_⟩
  · have hdec : decodeInit w = i := by rw [← decode_encode i, he, decode]
    rw [step_of_waiting_init hr hp hw, hdec]
  · have hdec : decodeCmd c = i := by rw [← decode_encode i, he, decode]
    rw [step_of_waiting_cmd hr hp hi hc, hdec]

/-- Settles O33: `withFetchWord` leaves one offer in an idle machine, and the step accepts it. -/
theorem fetchedTableWordIsRun : Obligations.FetchedTableWordIsRun := by
  intro i s nbits w hn hw hdec
  rcases hn with rfl | rfl
  · refine ⟨_, ?_, rfl⟩
    rw [State.withFetchWord, step_of_waiting_cmd (rstAsserted_offerWord _ s) rfl rfl rfl, decodeTableWord_16 hw hdec,
      offerWord_rstInputs_tail]
    rfl
  · refine ⟨_, ?_, rfl⟩
    rw [State.withFetchWord, step_of_waiting_init (rstAsserted_offerWord _ s) rfl rfl, decodeTableWord_40 hw hdec,
      offerWord_rstInputs_tail]
    rfl

/-- Settles O34: while busy the step lets the dwell pass and ends the phase; an offer that waits is kept. -/
theorem busyStepEndsThePhase : Obligations.BusyStepEndsThePhase := by
  intro s hb hr
  refine ⟨_, _, _, step_busy_eq (noReset_one.1 hr) hb, fun hw => ?_⟩
  rw [loadPorts_of_waiting hw]
  exact ⟨rfl, rfl, rfl⟩

/-- Settles O35: with an empty program no line comes to the channels, and there is nothing to accept. -/
theorem idleStepWithoutOfferChangesNothing : Obligations.IdleStepWithoutOfferChangesNothing := by
  intro s hp hr hi hc hprog
  rw [step_of_idle (noReset_one.1 hr) hp, beginStep, loadPorts_of_empty hprog]
  exact acceptOffer_none hi hc

/-- Settles O36: the INIT is accepted in the first step and leaves the machine idle with the SEND waiting, which the second
step accepts. -/
theorem initGoesBeforeSend : Obligations.InitGoesBeforeSend := by
  intro p q d c s hp hr hi hc
  have hr1 : rstAsserted s = false := noReset_one.1 (noReset_mono (by omega) hr)
  have hstep := step_of_waiting_init hr1 hp hi
  rw [decodeInit_initWord] at hstep
  obtain ⟨t, ht, htp, hti, htc, hlegal, hshort⟩ := exec_init_answer p q d
    (s := { s with initPort := none, rsp := none, rstInputs := s.rstInputs.tail }) hp
  have htc' : t.cmdPort = some c := htc.trans hc
  have hrt : rstAsserted t = false := by
    refine noReset_one.1 fun j hj => ?_
    rw [step_rstInputs (hstep.trans ht)]
    exact noReset_tail hr j hj
  exact ⟨by simp [State.cmdReady, hi], t, hstep.trans ht, htp, hti, htc', hlegal, hshort,
    by simp [State.cmdReady, htp, hti], step_of_waiting_cmd hrt htp hti htc'⟩

/-- Settles O37: a reset comes before everything else in the step, and only the inputs and observations go on. -/
theorem resetInputEntersTheResetState : Obligations.ResetInputEntersTheResetState := by
  intro s hr
  refine ⟨0#40, (loadPorts s).initPort, (loadPorts s).cmdPort, (loadPorts s).program, s.wireDraws + 1, ?_, fun hw => ?_⟩
  · rw [step_of_reset hr, beginStep_eq_hostStep]; rfl
  · rw [loadPorts_of_waiting hw]
    exact ⟨rfl, rfl, rfl⟩

end Sys2Proof.Machine
end

section
/-! The invariant of the phase level (O39, O40, O48): each action of a step keeps it, and so does the step. The actions meet
in two operations, ending an operation in IDLE (`raiseError`) and entering a phase with its line state on the lines
(`enterPhase`), so the invariant is proved for these two. -/

namespace Sys2Proof.Machine

/-! ## What the invariant says of the registers, whatever the phase -/

/-- The part of the invariant that speaks neither of the phase nor of the pulse. -/
structure RegistersInv (s : State) : Prop where
  bitIdx_le : s.bitIdx.toNat ≤ 39
  presc_zero : s.presc = 0
  initialized_config : s.initialized = true → 500 ≤ s.config.bitDelay.toNat ∧ s.lineOe = true
  uninitialized : s.initialized = false →
    s.lineOe = false ∧ s.config = ⟨0#8, 0#8, 0#20⟩ ∧ s.rts = false ∧ s.dtr = false

/-- What a transmission needs of the registers: an INIT has been made, the message is framed, and no pulse is up. -/
structure SendingInv (s : State) : Prop where
  bitIdx_le : s.bitIdx.toNat ≤ 39
  presc_zero : s.presc = 0
  initialized : s.initialized = true
  bitDelay_ge : 500 ≤ s.config.bitDelay.toNat
  lineOe : s.lineOe = true
  framed : msgFramed s.msg = true
  rsp_none : s.rsp = none

theorem Inv.registers {s : State} (hI : Inv s) : RegistersInv s :=
  ⟨hI.bitIdx_le, hI.presc_zero, hI.initialized_config, hI.uninitialized⟩

theorem SendingInv.registers {s : State} (h : SendingInv s) : RegistersInv s where
  bitIdx_le := h.bitIdx_le
  presc_zero := h.presc_zero
  initialized_config _ := ⟨h.bitDelay_ge, h.lineOe⟩
  uninitialized h0 := absurd (h.initialized.symm.trans h0) (by decide)

/-- The host's side of a step touches none of these registers. -/
theorem RegistersInv.hostStep {s : State} (h : RegistersInv s) (a : Option InitWord) (b : Option CmdWord)
    (p : List HostLine) : RegistersInv (hostStep s a b p) :=
  ⟨h.bitIdx_le, h.presc_zero, h.initialized_config, h.uninitialized⟩

/-- At the end of a dwell a transmission has the registers it had. -/
theorem SendingInv.endHold_phaseOver {s : State} (hI : Inv s) (hb : s.phase ≠ .idle) (a : Option InitWord)
    (b : Option CmdWord) (p : List HostLine) : SendingInv (endHold (phaseOver s a b p)) := by
  obtain ⟨hdelay, hoe⟩ := hI.initialized_config (hI.busy_initialized hb)
  exact ⟨hI.bitIdx_le, hI.presc_zero, hI.busy_initialized hb, hdelay, hoe, hI.busy_framed hb, rfl⟩

theorem SendingInv.with_bitIdx {s : State} (h : SendingInv s) {b : BitVec 6} (hb : b.toNat ≤ 39) :
    SendingInv { s with bitIdx := b } :=
  ⟨hb, h.presc_zero, h.initialized, h.bitDelay_ge, h.lineOe, h.framed, h.rsp_none⟩

/-! ## The actions of a step -/

/-- An idle machine with the registers of 10_state R38 has the invariant, whatever its inputs and observations are. -/
theorem inv_of_reset_registers {s : State} (hphase : s.phase = .idle) (hbit : s.bitIdx = 0#6) (hdwell : s.dwell = 0#20)
    (hpresc : s.presc = 0) (hinit : s.initialized = false) (hrsp : s.rsp = none)
    (hlines : s.lineOe = false ∧ s.config = ⟨0#8, 0#8, 0#20⟩ ∧ s.rts = false ∧ s.dtr = false) : Inv s := by
  constructor <;> simp [*, phaseDuration, heldLine]

/-- Ending an operation in IDLE: by an error, or by the end of QUIET (60_exceptions R150, R157). -/
theorem inv_raiseError {s : State} (h : RegistersInv s) (e : ErrCode) : Inv (raiseError e s) where
  bitIdx_le := h.bitIdx_le
  dwell_eq := rfl
  presc_zero := h.presc_zero
  busy_initialized hb := absurd rfl hb
  initialized_config := h.initialized_config
  uninitialized := h.uninitialized
  held_lines _ hl := by cases hl
  busy_framed hb := absurd rfl hb
  busy_wires hb := absurd rfl hb
  rsp_err _ he := Option.some.inj he

/-- Entering a phase with its line state on the lines, the wires known. -/
theorem inv_enterPhase {s : State} {q : Phase} (h : SendingInv s) (hw : s.wireKnown = true)
    (hl : heldLine (enterPhase q s) = some s.lines) : Inv (enterPhase q s) where
  bitIdx_le := h.bitIdx_le
  dwell_eq := rfl
  presc_zero := h.presc_zero
  busy_initialized _ := h.initialized
  initialized_config _ := ⟨h.bitDelay_ge, h.lineOe⟩
  uninitialized := h.registers.uninitialized
  held_lines _ hl' := Option.some.inj (hl.symm.trans hl')
  busy_framed _ := h.framed
  busy_wires _ := hw
  rsp_err _ he := by cases h.rsp_none.symm.trans he

/-- A line write of a transmission, failed or not. -/
theorem inv_lineWrite {s : State} {q : Phase} {ls : LineState} (h : SendingInv s)
    (hl : heldLine (enterPhase q s) = some ls) : Inv (lineWrite ls (enterPhase q) s) := by
  rcases lineWrite_cases ls (enterPhase q) s with ⟨-, hw⟩ | ⟨-, hw⟩
  · have hs : SendingInv (lineWritten ls s) :=
      ⟨h.bitIdx_le, h.presc_zero, h.initialized, h.bitDelay_ge, h.lineOe, h.framed, h.rsp_none⟩
    rw [hw]
    exact inv_enterPhase hs rfl (hl.trans (congrArg some (lineWritten_lines ls s).symm))
  · have hr := h.registers
    have hi0 : s.initialized ≠ false := by simp [h.initialized]
    rw [hw]
    exact inv_raiseError (s := { driveLines ls s with
        trace := s.trace ++ [.failed ls], wireKnown := false, wireDraws := s.wireDraws + 1 })
      ⟨hr.bitIdx_le, hr.presc_zero, hr.initialized_config, fun h0 => absurd h0 hi0⟩ .errLineWrite

/-- An accepted legal INIT. -/
theorem inv_configured {s : State} (hI : Inv s) (hp : s.phase = .idle) {d : Delay} (hd : 500 ≤ d.toNat) (p q : Pin) :
    Inv (complete .errNone (enableLines (configure p q d s))) := by
  have hdwell : s.dwell = 0#20 := hI.dwell_of_phase hp
  constructor <;> simp [hp, hd, hdwell, hI.bitIdx_le, hI.presc_zero, phaseDuration, heldLine]

theorem inv_hostStep {s : State} (hI : Inv s) (a : Option InitWord) (b : Option CmdWord) (p : List HostLine) :
    Inv (hostStep s a b p) :=
  ⟨hI.bitIdx_le, hI.dwell_eq, hI.presc_zero, hI.busy_initialized, hI.initialized_config, hI.uninitialized,
    hI.held_lines, hI.busy_framed, hI.busy_wires, fun _ he => by cases he⟩

/-- An accepted SEND that starts its transmission. -/
theorem inv_startTransmit {s : State} (hI : Inv s) (hi : s.initialized = true) {m : Message} (hm : msgFramed m = true) :
    Inv (startTransmit { sendTaken s with msg := m }) := by
  obtain ⟨hdelay, hoe⟩ := hI.initialized_config hi
  exact inv_lineWrite ⟨hI.bitIdx_le, hI.presc_zero, hi, hdelay, hoe, hm, rfl⟩ rfl

/-- The end of GAP after the last bit-cell writes nothing: QUIET goes on holding Standby. -/
theorem inv_lastCell {s : State} (hI : Inv s) (hp : s.phase = .gap) : Inv (lastCell (phaseOverNow s)) := by
  have hb : s.phase ≠ .idle := by simp [hp]
  have hlines : s.lines = .standby := hI.held_lines _ (heldLine_of_gap hp)
  exact inv_enterPhase (SendingInv.endHold_phaseOver hI hb _ _ _) (hI.busy_wires hb) (congrArg some hlines.symm)

/-! ## The step -/

theorem step_inv {s t : State} (hI : Inv s) (h : step s = .next t) : Inv t := by
  have sending {p : Phase} (hp : s.phase = p) (hne : p ≠ .idle) : SendingInv (endHold (phaseOverNow s)) :=
    SendingInv.endHold_phaseOver hI (hp ▸ hne) _ _ _
  cases step_cases h with
  | reset _ ht => exact ht ▸ inv_of_reset_registers rfl rfl rfl rfl rfl rfl ⟨rfl, rfl, rfl, rfl⟩
  | nothing _ _ _ _ ht => exact ht ▸ inv_hostStep hI _ _ _
  | initRefused _ _ _ _ _ _ _ ht => exact ht ▸ inv_raiseError (hI.registers.hostStep _ _ _) _
  | initDone _ hp p q d _ hd ht => exact ht ▸ inv_configured (inv_hostStep hI _ _ _) hp hd p q
  | sendIllegal _ _ _ _ _ _ _ ht => exact ht ▸ inv_raiseError (hI.registers.hostStep _ _ _) _
  | sendEarly _ _ _ _ _ _ _ _ ht => exact ht ▸ inv_raiseError (hI.registers.hostStep _ _ _) _
  | sendStarts _ _ _ _ _ _ _ hi m hm ht => exact ht ▸ inv_startTransmit hI hi hm
  | resetEnds _ hp ht => exact ht ▸ inv_lineWrite (sending hp (by decide)) rfl
  | settleEnds _ hp ht => exact ht ▸ inv_lineWrite ((sending hp (by decide)).with_bitIdx (by decide)) rfl
  | dataEnds _ hp _ ht => exact ht ▸ inv_lineWrite (sending hp (by decide)) rfl
  | gapEnds _ hp hi ht =>
    have hb : (s.bitIdx + 1#6).toNat = s.bitIdx.toNat + 1 := bitIdx_succ hi
    have hs := (sending hp (by decide)).with_bitIdx (b := s.bitIdx + 1#6) (by omega)
    exact ht ▸ inv_lineWrite hs (congrArg (fun n => some (dataSymbol s.msg n)) hb)
  | lastGapEnds _ hp _ ht => exact ht ▸ inv_lastCell hI hp
  | quietEnds _ hp ht => exact ht ▸ inv_raiseError (sending hp (by decide)).registers .errNone

/-! ## What the invariant says of the lines -/

/-- Every data symbol has one line HIGH and one LOW (41_transmitter R99). -/
theorem dataSymbol_high (m : Message) (i : Nat) :
    lineRts (dataSymbol m i) = true ∨ lineDtr (dataSymbol m i) = true := by
  unfold dataSymbol
  cases bitOf m i
  · exact .inr rfl
  · exact .inl rfl

/-- Every phase of a transmission but RESET holds a line HIGH (41_transmitter R121). -/
theorem heldLine_high {s : State} (hb : s.phase ≠ .idle) (hr : s.phase ≠ .reset) :
    ∃ ls, heldLine s = some ls ∧ (lineRts ls = true ∨ lineDtr ls = true) := by
  cases hp : s.phase with
  | idle => exact absurd hp hb
  | reset => exact absurd hp hr
  | settle => exact ⟨_, heldLine_of_settle hp, .inl rfl⟩
  | data => exact ⟨_, heldLine_of_data hp, dataSymbol_high _ _⟩
  | gap => exact ⟨_, heldLine_of_gap hp, .inl rfl⟩
  | quiet => exact ⟨_, heldLine_of_quiet hp, .inl rfl⟩

/-- While busy the wires carry the registers: the lines are driven and the last write succeeded. -/
theorem wires_eq_lines {s : State} (hI : Inv s) (hb : s.phase ≠ .idle) : s.wires = s.lines := by
  obtain ⟨-, hoe⟩ := hI.initialized_config (hI.busy_initialized hb)
  exact if_pos ⟨hoe, hI.busy_wires hb⟩

/-! ## The statements -/

/-- Settles O39: the reset state is idle and has the registers of R38. -/
theorem invHoldsAtReset : Obligations.InvHoldsAtReset :=
  inv_of_reset_registers rfl rfl rfl rfl rfl rfl ⟨rfl, rfl, rfl, rfl⟩

/-- Settles O40: by the inversion of a step, each of whose cases ends in IDLE or enters a phase with its line state on the
lines. -/
theorem invIsKeptByEveryStep : Obligations.InvIsKeptByEveryStep :=
  fun _ _ hI h => step_inv hI h

/-- Settles O48: the invariant ties the wires to the registers and the registers to the line state of the phase. -/
theorem transmissionKeepsALineHigh : Obligations.TransmissionKeepsALineHigh := by
  intro s hI hb
  have hwires := wires_eq_lines hI hb
  refine ⟨hwires, fun hr => ?_⟩
  obtain ⟨ls, hheld, hhigh⟩ := heldLine_high hb hr
  rwa [hwires, hI.held_lines ls hheld]

end Sys2Proof.Machine
end

section
/-! Rules of the whole machine (10_state R20 to R34, 20_memory R52, R57, 42_command_surface R126 to R135): the inversion of
a step in six kinds, what a line write and the end of a dwell keep, and the six statements about every step. -/

namespace Sys2Proof.Machine

/-! ## The kinds of step -/

/-- What a step that answers `t` is, the errors and the ends of a phase taken together. -/
inductive StepKind (s t : State) : Prop where
  | reset (hr : rstAsserted s = true)
  | nothing (hp : s.phase = .idle) (ht : t = sendTaken s)
  | refused (hp : s.phase = .idle) (e : ErrCode) (b : Option CmdWord)
      (ht : t = raiseError e (hostStep s none b (loadPorts s).program))
  | configured (hp : s.phase = .idle) (p q : Pin) (d : Delay) (ha : acceptsInit s p q d) (hd : 500 ≤ d.toNat)
      (ht : t = complete .errNone (enableLines (configure p q d (initTaken s))))
  | started (hp : s.phase = .idle) (c : Command) (house : BitVec 4) (device : BitVec 5)
      (ha : acceptsSend s c house device) (hd : 1 ≤ device.toNat ∧ device.toNat ≤ 16) (hi : s.initialized = true)
      (m : Message) (ht : t = startTransmit { sendTaken s with msg := m })
  | phaseEnds (hb : s.phase ≠ .idle) (he : DwellEnd (phaseOverNow s) t)

theorem stepKind_of_step {s t : State} (h : step s = .next t) : StepKind s t := by
  by_cases hb : s.phase ≠ .idle ∧ rstAsserted s = false
  · obtain ⟨hb, hr⟩ := hb
    exact .phaseEnds hb (endOfDwell_inv (s := phaseOverNow s) hb ((step_busy_eq hr hb).symm.trans h))
  · have notBusy {p : Phase} (hr : rstAsserted s = false) (hp : s.phase = p) (hne : p ≠ .idle) : StepKind s t :=
      absurd ⟨hp ▸ hne, hr⟩ hb
    cases step_cases h with
    | reset hr _ => exact .reset hr
    | nothing _ hp _ _ ht => exact .nothing hp ht
    | initRefused _ hp _ _ _ _ _ ht => exact .refused hp _ _ ht
    | initDone _ hp p q d ha hd ht => exact .configured hp p q d ha hd ht
    | sendIllegal _ hp _ _ _ _ _ ht => exact .refused hp _ _ ht
    | sendEarly _ hp _ _ _ _ _ _ ht => exact .refused hp _ _ ht
    | sendStarts _ hp c house device ha hd hi m _ ht => exact .started hp c house device ha hd hi m ht
    | resetEnds hr hp _ => exact notBusy hr hp (by decide)
    | settleEnds hr hp _ => exact notBusy hr hp (by decide)
    | dataEnds hr hp _ _ => exact notBusy hr hp (by decide)
    | gapEnds hr hp _ _ => exact notBusy hr hp (by decide)
    | lastGapEnds hr hp _ _ => exact notBusy hr hp (by decide)
    | quietEnds hr hp _ => exact notBusy hr hp (by decide)

/-! ## What a transmission keeps -/

/-- `t` has the message, the configuration and the offers of `s`. -/
structure SameOperation (s t : State) : Prop where
  msg : t.msg = s.msg
  config : t.config = s.config
  initialized : t.initialized = s.initialized
  lineOe : t.lineOe = s.lineOe
  initPort : t.initPort = s.initPort
  cmdPort : t.cmdPort = s.cmdPort
  program : t.program = s.program

/-- A line write keeps them, failed or not. -/
theorem lineWrite_sameOperation (ls : LineState) (q : Phase) (s : State) :
    SameOperation s (lineWrite ls (enterPhase q) s) := by
  rcases lineWrite_cases ls (enterPhase q) s with ⟨-, hw⟩ | ⟨-, hw⟩ <;> rw [hw] <;> exact ⟨rfl, rfl, rfl, rfl, rfl, rfl, rfl⟩

theorem startTransmit_sameOperation (s : State) : SameOperation s (startTransmit s) :=
  lineWrite_sameOperation .reset .reset s

/-- The end of a busy phase keeps them. -/
theorem DwellEnd.sameOperation {s t : State} (h : DwellEnd s t) : SameOperation s t := by
  cases h with
  | writes ls _ _ ht =>
    have hk := lineWrite_sameOperation ls (nextPhase s) { endHold s with bitIdx := nextBitIdx s }
    exact ht ▸ ⟨hk.msg, hk.config, hk.initialized, hk.lineOe, hk.initPort, hk.cmdPort, hk.program⟩
  | lastGap _ _ ht => exact ht ▸ ⟨rfl, rfl, rfl, rfl, rfl, rfl, rfl⟩
  | quiet _ ht => exact ht ▸ ⟨rfl, rfl, rfl, rfl, rfl, rfl, rfl⟩

/-! ## Trace and lines -/

/-- A line write is one event of the trace and leaves its line state in the registers. -/
theorem lineWrite_trace (ls : LineState) (q : Phase) (s : State) :
    ∃ e, (e = .wrote ls ∨ e = .failed ls) ∧ (lineWrite ls (enterPhase q) s).trace = s.trace ++ [e]
      ∧ (lineWrite ls (enterPhase q) s).lines = ls := by
  rcases lineWrite_cases ls (enterPhase q) s with ⟨-, hw⟩ | ⟨-, hw⟩ <;> rw [hw]
  · exact ⟨_, .inl rfl, rfl, lineWritten_lines ls s⟩
  · exact ⟨_, .inr rfl, rfl, lineFailed_lines ls s⟩

/-- What a step may do to the trace and the two output registers (20_memory R52, 10_state R20). -/
abbrev OneWriteAtMost (s t : State) : Prop :=
  ∃ holds writes, t.trace = s.trace ++ holds ++ writes
    ∧ (holds = [] ∨ ∃ n, holds = [.held n])
    ∧ ((writes = [] ∧ ((t.rts = s.rts ∧ t.dtr = s.dtr) ∨ (s.lineOe = false ∧ t.lineOe = true)))
      ∨ ∃ ls, (writes = [.wrote ls] ∨ writes = [.failed ls]) ∧ t.lines = ls)

/-- No event, and the registers as they were. -/
theorem oneWriteAtMost_of_none {s t : State} (ht : t.trace = s.trace) (hrts : t.rts = s.rts) (hdtr : t.dtr = s.dtr) :
    OneWriteAtMost s t :=
  ⟨[], [], by simp [ht], .inl rfl, .inl ⟨rfl, .inl ⟨hrts, hdtr⟩⟩⟩

/-- A line write after holds that leave the lines alone. -/
theorem oneWriteAtMost_of_lineWrite {s u : State} {holds : List Event} (hu : u.trace = s.trace ++ holds)
    (hh : holds = [] ∨ ∃ n, holds = [.held n]) (ls : LineState) (q : Phase) :
    OneWriteAtMost s (lineWrite ls (enterPhase q) u) := by
  obtain ⟨e, he, htrace, hlines⟩ := lineWrite_trace ls q u
  refine ⟨holds, [e], by rw [htrace, hu], hh, .inr ⟨ls, ?_, hlines⟩⟩
  rcases he with rfl | rfl
  · exact .inl rfl
  · exact .inr rfl

theorem DwellEnd.oneWriteAtMost {s t : State} (h : DwellEnd s t) : OneWriteAtMost s t := by
  have hold : [Event.held (phaseDuration s.phase s.config.bitDelay).toNat] = []
      ∨ ∃ n, [Event.held (phaseDuration s.phase s.config.bitDelay).toNat] = [.held n] := .inr ⟨_, rfl⟩
  cases h with
  | writes ls _ _ ht => exact ht ▸ oneWriteAtMost_of_lineWrite rfl hold ls _
  | lastGap _ _ ht => exact ht ▸ ⟨_, [], (List.append_nil _).symm, hold, .inl ⟨rfl, .inl ⟨rfl, rfl⟩⟩⟩
  | quiet _ ht => exact ht ▸ ⟨_, [], (List.append_nil _).symm, hold, .inl ⟨rfl, .inl ⟨rfl, rfl⟩⟩⟩

/-! ## Completions -/

/-- What a step that begins with no pulse may do to `err`, the pulse and its record (10_state R26, R34). -/
abbrev OnePulseAtMost (s t : State) : Prop :=
  (t.rsp = none ∧ t.err = s.err ∧ t.responses = s.responses)
  ∨ ∃ e, t.rsp = some e ∧ t.err = e ∧ t.responses = s.responses ++ [⟨t.now, e⟩] ∧ t.phase = .idle

/-- A line write completes only if it fails. -/
theorem onePulseAtMost_of_lineWrite {s : State} (hrsp : s.rsp = none) (ls : LineState) (q : Phase) :
    OnePulseAtMost s (lineWrite ls (enterPhase q) s) := by
  rcases lineWrite_cases ls (enterPhase q) s with ⟨-, hw⟩ | ⟨-, hw⟩ <;> rw [hw]
  · exact .inl ⟨hrsp, rfl, rfl⟩
  · exact .inr ⟨_, rfl, rfl, rfl, rfl⟩

theorem DwellEnd.onePulseAtMost {s t : State} (hrsp : s.rsp = none) (h : DwellEnd s t) : OnePulseAtMost s t := by
  cases h with
  | writes ls _ _ ht =>
    exact ht ▸ onePulseAtMost_of_lineWrite (s := { endHold s with bitIdx := nextBitIdx s }) hrsp ls _
  | lastGap _ _ ht => exact ht ▸ .inl ⟨hrsp, rfl, rfl⟩
  | quiet _ ht => exact ht ▸ .inr ⟨_, rfl, rfl, rfl, rfl⟩

/-! ## Offers -/

/-- `s` with other offers of the host. -/
def withOffers (a : Option InitWord) (b : Option CmdWord) (p : List HostLine) (s : State) : State :=
  { s with initPort := a, cmdPort := b, program := p }

/-- A line write does not look at the offers. -/
theorem lineWrite_withOffers (a : Option InitWord) (b : Option CmdWord) (p : List HostLine) (ls : LineState) (q : Phase)
    (s : State) :
    lineWrite ls (enterPhase q) (withOffers a b p s) = withOffers a b p (lineWrite ls (enterPhase q) s) := by
  rcases lineWrite_cases ls (enterPhase q) s with ⟨hf, hw⟩ | ⟨hf, hw⟩ <;> rw [hw]
  · exact lineWrite_succeeds hf
  · exact lineWrite_fails hf

/-- Neither does the end of a busy phase. -/
theorem endOfDwell_withOffers (a : Option InitWord) (b : Option CmdWord) (p : List HostLine) {s t : State}
    (h : DwellEnd s t) : endOfDwell (withOffers a b p s) = .next (withOffers a b p t) := by
  cases h with
  | writes ls hw hi ht =>
    rw [endOfDwell_eq_lineWrite (s := withOffers a b p s) hi hw, ht]
    exact congrArg _ (lineWrite_withOffers a b p ls (nextPhase s) { endHold s with bitIdx := nextBitIdx s })
  | lastGap hp hi ht => rw [endOfDwell_lastGap (s := withOffers a b p s) hp hi, ht]; rfl
  | quiet hp ht => rw [endOfDwell_quiet (s := withOffers a b p s) hp, ht]; rfl

/-! ## The statements -/

/-- Settles O42: a busy step is the end of a phase, which keeps the operation and the offers; those that wait are the
host's before the step. -/
theorem busyStepKeepsMessageAndConfig : Obligations.BusyStepKeepsMessageAndConfig := by
  intro s t hb hr h
  have he := (step_busy_eq (noReset_one.1 hr) hb).symm.trans h
  have hk := (endOfDwell_inv (s := phaseOverNow s) hb he).sameOperation
  refine ⟨hk.msg, hk.config, hk.initialized, hk.lineOe, fun hw => ?_⟩
  have hports : phaseOverNow s = phaseOver s s.initPort s.cmdPort s.program := by
    rw [phaseOverNow, loadPorts_of_waiting hw]
  rw [hports] at hk
  exact ⟨hk.initPort, hk.cmdPort, hk.program⟩

/-- Settles O43: of the kinds of step only an accepted legal INIT writes LineConfig. -/
theorem onlyInitChangesLineConfig : Obligations.OnlyInitChangesLineConfig := by
  intro s t hr h hne
  cases stepKind_of_step h with
  | reset hr' => rw [noReset_one.1 hr] at hr'; cases hr'
  | nothing _ ht => exact absurd (ht ▸ rfl) hne
  | refused _ _ _ ht => exact absurd (ht ▸ rfl) hne
  | configured hp p q d ha hd ht => exact ⟨hp, p, q, d, ha, hd, by simp [ht]⟩
  | started _ _ _ _ _ _ _ m ht => exact absurd (ht ▸ (startTransmit_sameOperation _).config) hne
  | phaseEnds _ he => exact absurd he.sameOperation.config hne

/-- Settles O44: of the kinds of step that begin in IDLE only the start of a SEND can leave it, and it does so by its Reset
write. -/
theorem onlyAnErrorFreeSendLeavesIdle : Obligations.OnlyAnErrorFreeSendLeavesIdle := by
  intro s t hp h hne
  cases stepKind_of_step h with
  | reset hr => exact absurd (by rw [Host.Outcome.next.inj (h.symm.trans (step_of_reset hr))]; rfl) hne
  | nothing _ ht => exact absurd (ht ▸ hp) hne
  | refused _ _ _ ht => exact absurd (ht ▸ rfl) hne
  | configured _ _ _ _ _ _ ht => exact absurd (by simp [ht, hp]) hne
  | started _ c house device ha hd hi m ht =>
    refine ⟨?_, hi, c, house, device, ha, hd⟩
    rcases lineWrite_cases .reset (enterPhase .reset) { sendTaken s with msg := m } with ⟨-, hw⟩ | ⟨-, hw⟩
    · rw [ht, startTransmit, hw]; rfl
    · exact absurd (by rw [ht, startTransmit, hw]; rfl) hne
  | phaseEnds hb _ => exact absurd hp hb

/-- Settles O45: each kind of step makes one write at most, and the first INIT changes the registers without one. -/
theorem linesChangeOnlyByOneWriteAStep : Obligations.LinesChangeOnlyByOneWriteAStep := by
  intro s t hr h
  cases stepKind_of_step h with
  | reset hr' => rw [noReset_one.1 hr] at hr'; cases hr'
  | nothing _ ht => exact ht ▸ oneWriteAtMost_of_none rfl rfl rfl
  | refused _ _ _ ht => exact ht ▸ oneWriteAtMost_of_none rfl rfl rfl
  | configured _ p q d _ _ ht =>
    subst ht
    by_cases hoe : s.lineOe = true
    · exact oneWriteAtMost_of_none (by simp) (by simp [hoe]) (by simp [hoe])
    · exact ⟨[], [], by simp, .inl rfl, .inl ⟨rfl, .inr ⟨by simpa using hoe, by simp⟩⟩⟩
  | started _ _ _ _ _ _ _ m ht =>
    exact ht ▸ oneWriteAtMost_of_lineWrite (List.append_nil _).symm (.inl rfl) .reset .reset
  | phaseEnds _ he => exact he.oneWriteAtMost

/-- Settles O46: each kind of step begins without a pulse and completes once at most. -/
theorem eachCompletionIsOnePulse : Obligations.EachCompletionIsOnePulse := by
  intro s t hr h
  cases stepKind_of_step h with
  | reset hr' => rw [noReset_one.1 hr] at hr'; cases hr'
  | nothing _ ht => exact ht ▸ .inl ⟨rfl, rfl, rfl⟩
  | refused _ _ _ ht => exact ht ▸ .inr ⟨_, rfl, rfl, rfl, rfl⟩
  | configured hp _ _ _ _ _ ht => exact ht ▸ .inr ⟨_, rfl, rfl, by simp, by simp [hp]⟩
  | started _ _ _ _ _ _ _ m ht =>
    exact ht ▸ onePulseAtMost_of_lineWrite (s := { sendTaken s with msg := m }) rfl .reset .reset
  | phaseEnds _ he => exact DwellEnd.onePulseAtMost (s := phaseOverNow s) rfl he

/-- Settles O47: both steps end the same phase, and its end does not look at the offers. -/
theorem offersDoNotTouchATransmission : Obligations.OffersDoNotTouchATransmission := by
  intro s t a b p hb hr h
  have hr := noReset_one.1 hr
  have he := endOfDwell_inv (s := phaseOverNow s) hb ((step_busy_eq hr hb).symm.trans h)
  exact ⟨_, _, _, (step_busy_eq (s := withOffers a b p s) hr hb).trans (endOfDwell_withOffers _ _ _ he)⟩

end Sys2Proof.Machine
end

section
/-! Whole transmissions (41_transmitter R107 to R115, 42_command_surface R132, 70_reset_and_hazards R184): where a
transmission stands after each of its phases, by induction over the phases, and what happens if a write fails there. -/

namespace Sys2Proof.Machine

/-! ## Positions -/

/-- The hold of the `n`-th phase of a transmission, but for the last. -/
theorem phaseDuration_phaseAfter (d : Delay) {n : Nat} (h : n ≤ 81) :
    (phaseDuration (phaseAfter n) d).toNat = holdAt d.toNat n := by
  rcases position_cases n h with rfl | rfl | ⟨i, hi, rfl | rfl⟩
  · rfl
  · rfl
  · rw [phaseAfter_data i hi, holdAt, if_neg (by omega)]; rfl
  · rw [phaseAfter_gap i hi, holdAt, if_neg (by omega)]; rfl

/-- The times of two neighbouring writes differ by the hold between them; after the last write the bit delay passes too
before QUIET (70_reset_and_hazards R184). -/
theorem lineWriteTime_add_hold (d : Nat) {n : Nat} (h : n ≤ 81) :
    lineWriteTime d (n + 1 + 1) = lineWriteTime d (n + 1) + holdAt d n := by
  rcases h.lt_or_eq with hlt | rfl
  · exact lineWriteTime_succ d n (by omega)
  · simp [lineWriteTime, holdAt]; omega

/-- At each position but the last two the dwell ends with the next write of the trace and leads to the next position
(41_transmitter R107). -/
theorem next_of_position {t : State} {b n : Nat} (h : n ≤ 80) (hp : t.phase = phaseAfter n)
    (hb : t.bitIdx.toNat = bitIdxAfter b n) :
    nextWrite t = some (writeAt t.msg (n + 1)) ∧ nextPhase t = phaseAfter (n + 1)
    ∧ (nextBitIdx t).toNat = bitIdxAfter b (n + 1) ∧ (t.phase = .data → t.bitIdx.toNat ≤ 39) := by
  rcases position_cases n (by omega) with rfl | rfl | ⟨i, hi, rfl | rfl⟩
  · have hp : t.phase = .reset := hp
    simp [nextWrite, nextPhase, nextBitIdx, hp, writeAt, phaseAfter, hb, bitIdxAfter]
  · have hp : t.phase = .settle := hp
    simp [nextWrite, nextPhase, nextBitIdx, hp, writeAt, phaseAfter, bitIdxAfter]
  · rw [phaseAfter_data i hi] at hp
    rw [bitIdxAfter_data b i hi] at hb
    rw [show 2 + 2 * i + 1 = 3 + 2 * i by omega, writeAt_gap, phaseAfter_gap i hi, bitIdxAfter_gap b i hi]
    simp only [nextWrite, nextPhase, nextBitIdx, hp]
    exact ⟨trivial, trivial, hb, fun _ => by omega⟩
  · have hi' : i + 1 < 40 := by omega
    rw [phaseAfter_gap i hi] at hp
    rw [bitIdxAfter_gap b i hi] at hb
    have hlt : i < 39 := by omega
    have hnext : (t.bitIdx + 1#6).toNat = i + 1 := by rw [bitIdx_succ (hb ▸ hlt), hb]
    rw [show 3 + 2 * i + 1 = 2 + 2 * (i + 1) by omega, writeAt_data, phaseAfter_data _ hi', bitIdxAfter_data b _ hi']
    simp only [nextWrite, nextPhase, nextBitIdx, hp, hb, if_pos hlt, hnext]
    simp

/-- How many events of TraceOf stand before the hold of the `n`-th phase, `n` ≤ 82: only QUIET follows no write. -/
def eventsBeforeHold (n : Nat) : Nat := min (2 * n + 1) 164

/-- `t` is where the transmission of `s` stands when `n` of its phases have ended, `n` ≤ 82, and no write has failed. -/
structure Underway (s : State) (n : Nat) (t : State) : Prop where
  phase : t.phase = phaseAfter n
  bitIdx : t.bitIdx.toNat = bitIdxAfter s.bitIdx.toNat n
  lines : t.lines = writeAt s.msg (min n 81)
  dwell : t.dwell = phaseDuration (phaseAfter n) s.config.bitDelay
  trace : t.trace = s.trace ++ (traceOf s.msg s.config.bitDelay.toNat).take (eventsBeforeHold n)
  now : t.now = s.now + lineWriteTime s.config.bitDelay.toNat (n + 1)
  msg : t.msg = s.msg
  config : t.config = s.config
  initialized : t.initialized = s.initialized
  lineOe : t.lineOe = s.lineOe
  responses : t.responses = s.responses
  rstInputs : t.rstInputs = s.rstInputs.drop n
  lineFaults : t.lineFaults = s.lineFaults.drop (min (n + 1) 82)

/-- StartTransmit, its Reset write succeeding, is position 0. -/
theorem underway_startTransmit {s : State} (hf : noLineFault 1 s) : Underway s 0 (startTransmit s) := by
  rw [startTransmit_eq_sendStarted hf]
  exact ⟨rfl, rfl, rfl, rfl, rfl, rfl, rfl, rfl, rfl, rfl, rfl, rfl, List.drop_one.symm⟩

section
variable {s t : State} {n : Nat} (h : Underway s n t)
include h

/-- The next step is no reset. -/
theorem Underway.not_rstAsserted (hr : noReset 83 s) (hn : n ≤ 82) : rstAsserted t = false := by
  rw [rstAsserted, h.rstInputs, headD_drop]
  exact hr n (by omega)

/-- The hold of the phase is the next event of TraceOf. -/
theorem Underway.hold (hn : n ≤ 81) :
    (traceOf s.msg s.config.bitDelay.toNat).take (2 * n + 2)
      = (traceOf s.msg s.config.bitDelay.toNat).take (2 * n + 1)
        ++ [.held (phaseDuration t.phase t.config.bitDelay).toNat] := by
  obtain ⟨-, hhold⟩ := traceOf_write s.msg s.config.bitDelay.toNat n hn
  rw [h.phase, h.config, phaseDuration_phaseAfter _ hn, take_succ_of_get hhold]

/-- The trace with that hold: what stands before the next write. -/
theorem Underway.trace_add_hold (hn : n ≤ 81) :
    (endHold (phaseOverNow t)).trace = s.trace ++ (traceOf s.msg s.config.bitDelay.toNat).take (2 * n + 2) := by
  rw [h.hold hn, ← List.append_assoc, show 2 * n + 1 = eventsBeforeHold n by unfold eventsBeforeHold; omega, ← h.trace]
  rfl

/-- The time at the end of the phase. -/
theorem Underway.now_add_dwell (hn : n ≤ 81) :
    t.now + t.dwell.toNat = s.now + lineWriteTime s.config.bitDelay.toNat (n + 1 + 1) := by
  rw [h.now, h.dwell, phaseDuration_phaseAfter _ hn, lineWriteTime_add_hold _ hn, Nat.add_assoc]

/-- A step at a position that a write follows is that write. -/
theorem Underway.step_eq (hr : noReset 83 s) (hn : n ≤ 80) :
    step t = .next (lineWrite (writeAt s.msg (n + 1)) (enterPhase (phaseAfter (n + 1)))
      { endHold (phaseOverNow t) with bitIdx := nextBitIdx t }) := by
  obtain ⟨hwrite, hphase, -, hdata⟩ := next_of_position (b := s.bitIdx.toNat) hn h.phase h.bitIdx
  have hb : t.phase ≠ .idle := by intro hp; simp [nextWrite, hp] at hwrite
  rw [step_busy_eq (h.not_rstAsserted hr (by omega)) hb,
    endOfDwell_eq_lineWrite (s := phaseOverNow t) hdata hwrite, h.msg, ← hphase]
  rfl

/-- The fault input at that write. -/
theorem Underway.lineFault_eq (hn : n ≤ 80) {u : State} (hu : u.lineFaults = t.lineFaults) :
    lineFault Config.hasLineFault u = s.lineFaults.getD (n + 1) false := by
  rw [lineFault, hu, h.lineFaults, headD_drop, show min (n + 1) 82 = n + 1 by omega]
  rfl

/-- If the write fails the transmission ends there. -/
theorem Underway.step_fails (hr : noReset 83 s) (hn : n ≤ 80) (hf : s.lineFaults.getD (n + 1) false = true) :
    step t = .next (lineFailed (writeAt s.msg (n + 1)) { endHold (phaseOverNow t) with bitIdx := nextBitIdx t }) :=
  (h.step_eq hr hn).trans (congrArg _ (lineWrite_fails ((h.lineFault_eq hn rfl).trans hf)))

/-- If the write succeeds the transmission is at its next position. -/
theorem Underway.step_succ (hr : noReset 83 s) (hn : n ≤ 80) (hf : s.lineFaults.getD (n + 1) false = false) :
    ∃ u, step t = .next u ∧ Underway s (n + 1) u := by
  obtain ⟨-, -, hbit, -⟩ := next_of_position (b := s.bitIdx.toNat) hn h.phase h.bitIdx
  obtain ⟨hwrote, -⟩ := traceOf_write s.msg s.config.bitDelay.toNat (n + 1) (by omega)
  have hok := (h.lineFault_eq hn (u := { endHold (phaseOverNow t) with bitIdx := nextBitIdx t }) rfl).trans hf
  refine ⟨_, (h.step_eq hr hn).trans (congrArg _ (lineWrite_succeeds hok)), ?_⟩
  constructor
  case phase => rfl
  case bitIdx => exact hbit
  case lines => rw [show min (n + 1) 81 = n + 1 by omega]; exact lineOfLevels_of_line _
  case dwell => rw [← h.config]; rfl
  case trace =>
    rw [show eventsBeforeHold (n + 1) = 2 * (n + 1) + 1 by unfold eventsBeforeHold; omega, take_succ_of_get hwrote,
      ← List.append_assoc, show 2 * (n + 1) = 2 * n + 2 by omega, ← h.trace_add_hold (by omega)]
    rfl
  case now => exact h.now_add_dwell (by omega)
  case msg => exact h.msg
  case config => exact h.config
  case initialized => exact h.initialized
  case lineOe => exact h.lineOe
  case responses => exact h.responses
  case rstInputs => exact (congrArg List.tail h.rstInputs).trans List.tail_drop
  case lineFaults =>
    rw [show min (n + 1 + 1) 82 = min (n + 1) 82 + 1 by omega]
    exact (congrArg List.tail h.lineFaults).trans List.tail_drop

end

/-- After `n` phases of which no write has failed the transmission stands at position `n`. -/
theorem run_underway {s : State} (hr : noReset 83 s) {n : Nat} (hn : n ≤ 81) (hf : noLineFault (n + 1) s) :
    ∃ t : State, Sys2Proof.core.run n (startTransmit s) = .next t ∧ Underway s n t := by
  induction n with
  | zero => exact ⟨_, rfl, underway_startTransmit hf⟩
  | succ n ih =>
    obtain ⟨t, ht, h⟩ := ih (by omega) (noLineFault_mono (by omega) hf)
    obtain ⟨u, hu, h'⟩ := h.step_succ hr (by omega) (hf (n + 1) (by omega))
    exact ⟨u, (core_run_snoc ht).trans hu, h'⟩

/-- The end of the last GAP writes nothing and enters QUIET. -/
theorem Underway.step_lastGap {s t : State} (h : Underway s 81 t) (hr : noReset 83 s) :
    ∃ u, step t = .next u ∧ Underway s 82 u := by
  refine ⟨_, Machine.step_lastGap (h.not_rstAsserted hr (by omega)) h.phase h.bitIdx, ?_⟩
  constructor
  case phase => rfl
  case bitIdx => exact h.bitIdx
  case lines => exact h.lines
  case dwell => rfl
  case trace => exact h.trace_add_hold le_rfl
  case now => exact h.now_add_dwell le_rfl
  case msg => exact h.msg
  case config => exact h.config
  case initialized => exact h.initialized
  case lineOe => exact h.lineOe
  case responses => exact h.responses
  case rstInputs => exact (congrArg List.tail h.rstInputs).trans List.tail_drop
  case lineFaults => exact h.lineFaults

/-- The whole transmission stands in QUIET before its last step. -/
theorem run_quiet {s : State} (hr : noReset 83 s) (hf : noLineFault 82 s) :
    ∃ t : State, Sys2Proof.core.run 82 (startTransmit s) = .next t ∧ Underway s 82 t := by
  obtain ⟨t, ht, h⟩ := run_underway hr le_rfl hf
  obtain ⟨u, hu, h'⟩ := h.step_lastGap hr
  exact ⟨u, (core_run_snoc ht).trans hu, h'⟩

/-- The end of QUIET ends the transmission. -/
theorem run_complete {s : State} (hr : noReset 83 s) (hf : noLineFault 82 s) :
    ∃ t : State, Underway s 82 t
      ∧ Sys2Proof.core.run 83 (startTransmit s) = .next (endQuiet (phaseOverNow t)) := by
  obtain ⟨t, ht, h⟩ := run_quiet hr hf
  exact ⟨t, h, (core_run_snoc ht).trans (step_quiet (h.not_rstAsserted hr le_rfl) h.phase)⟩

/-! ## The statements about one transmission -/

theorem traceOf_length (m : Message) (d : Nat) : (traceOf m d).length = 165 := by
  simp [traceOf, cellsTrace_length, Config.nBits]

/-- Settles O49: QUIET is the last position, and its end adds the last hold and completes. -/
theorem faultFreeTransmissionEmitsItsTrace : Obligations.FaultFreeTransmissionEmitsItsTrace := by
  intro s hr hf
  obtain ⟨t, h, hrun⟩ := run_complete hr hf
  have hphase : t.phase = .quiet := h.phase
  refine ⟨_, hrun, ?trace, ?now, rfl, h.lines, ?bitIdx, rfl, rfl, ?responses, h.msg, h.config, h.initialized, h.lineOe⟩
  case trace =>
    have hlast := take_succ_of_get (traceOf_last s.msg s.config.bitDelay.toNat)
    rw [List.take_of_length_le (by rw [traceOf_length])] at hlast
    rw [hlast, ← List.append_assoc, show 164 = eventsBeforeHold 82 from rfl, ← h.trace]
    change t.trace ++ [.held (phaseDuration t.phase t.config.bitDelay).toNat] = _
    rw [hphase]; rfl
  case now =>
    change t.now + t.dwell.toNat = _
    rw [h.now, h.dwell, Nat.add_assoc]
    congr 1
    change lineWriteTime _ 83 + 1000000 = _
    simp [lineWriteTime, totalTime]; omega
  case bitIdx => exact BitVec.eq_of_toNat_eq h.bitIdx
  case responses => exact congrArg (· ++ _) h.responses

/-- Settles O50: each of the 83 phases ends at its position. -/
theorem transmissionVisitsItsPhasesInOrder : Obligations.TransmissionVisitsItsPhasesInOrder := by
  intro s j hr hf hj
  rcases (by omega : j ≤ 81 ∨ j = 82 ∨ j = 83) with hj | rfl | rfl
  · obtain ⟨t, ht, h⟩ := run_underway hr hj (noLineFault_mono (by omega) hf)
    exact ⟨t, ht, h.phase, h.bitIdx⟩
  · obtain ⟨t, ht, h⟩ := run_quiet hr hf
    exact ⟨t, ht, h.phase, h.bitIdx⟩
  · obtain ⟨t, h, hrun⟩ := run_complete hr hf
    exact ⟨_, hrun, rfl, h.bitIdx⟩

/-- Settles O51: write `k` is the one that leads to position `k` - 1. -/
theorem eachLineWriteComesAtItsTime : Obligations.EachLineWriteComesAtItsTime := by
  intro s k hr hf h1 h82
  obtain ⟨n, rfl⟩ : ∃ n, k = n + 1 := ⟨k - 1, by omega⟩
  obtain ⟨t, ht, h⟩ := run_underway hr (n := n) (by omega) (noLineFault_mono (by omega) hf)
  obtain ⟨hwrote, -⟩ := traceOf_write s.msg s.config.bitDelay.toNat n (by omega)
  refine ⟨t, writeAt s.msg n, ht, ?trace, hwrote, ?lines, h.now⟩
  case trace => rw [h.trace, show eventsBeforeHold n = 2 * (n + 1) - 1 by unfold eventsBeforeHold; omega]
  case lines => rw [h.lines, show min n 81 = n by omega]

/-- Settles O52: the first write fails in StartTransmit, a later one at the end of the phase before it. -/
theorem faultAtAnyWriteTruncatesTheTrace : Obligations.FaultAtAnyWriteTruncatesTheTrace := by
  intro s k hk hr hf
  obtain ⟨hbefore, hfault⟩ := id hf
  obtain ⟨hwrote, -⟩ := traceOf_write s.msg s.config.bitDelay.toNat k hk
  cases k with
  | zero =>
    refine ⟨_, .reset, congrArg _ (startTransmit_of_fault hf), hwrote, ?_⟩
    exact ⟨by simp [lineFailed], rfl, rfl, rfl, rfl, rfl, rfl, rfl, rfl, rfl, rfl⟩
  | succ n =>
    obtain ⟨t, ht, h⟩ := run_underway hr (by omega) hbefore
    have htrace := h.trace_add_hold (by omega)
    refine ⟨_, _, (core_run_snoc ht).trans (h.step_fails hr (by omega) hfault), hwrote, ?trace, rfl, rfl, rfl, rfl,
      ?responses, lineFailed_lines _ _, rfl, h.msg, h.config, h.initialized⟩
    case trace => exact congrArg (· ++ _) htrace
    case responses => exact congrArg (· ++ _) h.responses

end Sys2Proof.Machine
end

section
/-! The end of every transmission (42_command_surface R132): the phases it has left go down with every step. And the counts
of TraceOf (41_transmitter R108, R109, R114), event by event. -/

namespace Sys2Proof.Machine

/-! ## The phases left -/

/-- How many phases a transmission has left in phase `p` of bit-cell `i`, faults aside (41_transmitter R107). -/
def phasesLeft (p : Phase) (i : Nat) : Nat :=
  match p with
  | .idle => 0
  | .reset => 83
  | .settle => 82
  | .data => 81 - 2 * i
  | .gap => 80 - 2 * i
  | .quiet => 1

theorem phasesLeft_le (p : Phase) (i : Nat) : phasesLeft p i ≤ 83 := by
  cases p <;> simp only [phasesLeft] <;> omega

/-- Only IDLE has no phase left, `bit_idx` being in range. -/
theorem idle_of_phasesLeft {p : Phase} {i : Nat} (hi : i ≤ 39) (h : phasesLeft p i = 0) : p = .idle := by
  cases p with
  | idle => rfl
  | reset => cases h
  | settle => cases h
  | data => simp only [phasesLeft] at h; omega
  | gap => simp only [phasesLeft] at h; omega
  | quiet => cases h

/-- A line write leads to a phase with fewer left. -/
theorem phasesLeft_next {s : State} {ls : LineState} (hw : nextWrite s = some ls) (hi : s.bitIdx.toNat ≤ 39) :
    phasesLeft (nextPhase s) (nextBitIdx s).toNat < phasesLeft s.phase s.bitIdx.toNat := by
  cases hp : s.phase with
  | idle => simp [nextWrite, hp] at hw
  | reset => simp [nextPhase, hp, phasesLeft]
  | settle => simp [nextPhase, nextBitIdx, hp, phasesLeft]
  | data => simp only [nextPhase, nextBitIdx, hp, phasesLeft]; omega
  | gap =>
    have hlt : s.bitIdx.toNat < 39 := by by_contra hge; simp [nextWrite, hp, hge] at hw
    simp only [nextPhase, nextBitIdx, hp, phasesLeft, if_pos hlt, bitIdx_succ hlt]; omega
  | quiet => simp [nextWrite, hp] at hw

/-- The end of a busy phase leaves fewer phases: a failed write none, any other end one less or the rest. -/
theorem DwellEnd.phasesLeft_lt {s t : State} (hb : s.phase ≠ .idle) (hi : s.bitIdx.toNat ≤ 39) (h : DwellEnd s t) :
    phasesLeft t.phase t.bitIdx.toNat < phasesLeft s.phase s.bitIdx.toNat := by
  cases h with
  | writes ls hw _ ht =>
    have hlt := phasesLeft_next hw hi
    rcases lineWrite_cases ls (enterPhase (nextPhase s)) { endHold s with bitIdx := nextBitIdx s } with ⟨-, he⟩ | ⟨-, he⟩
    · rw [ht, he]; exact hlt
    · rw [ht, he]; exact Nat.pos_of_ne_zero fun h0 => hb (idle_of_phasesLeft hi h0)
  | lastGap hp hi39 ht => rw [ht, hp, hi39]; exact (by decide : 1 < 80 - 2 * 39)
  | quiet hp ht => rw [ht, hp]; exact Nat.zero_lt_one

/-- From a busy state with the invariant IDLE is reached within the phases left, since every step leaves fewer. -/
theorem run_reaches_idle {n : Nat} {s : State} (hI : Inv s) (hr : noReset n s)
    (hn : phasesLeft s.phase s.bitIdx.toNat ≤ n) :
    ∃ (k : Nat) (t : State), k ≤ n ∧ Sys2Proof.core.run k s = .next t ∧ t.phase = .idle := by
  induction n generalizing s with
  | zero => exact ⟨0, s, le_rfl, rfl, idle_of_phasesLeft hI.bitIdx_le (Nat.le_zero.1 hn)⟩
  | succ n ih =>
    by_cases hp : s.phase = .idle
    · exact ⟨0, s, Nat.zero_le _, rfl, hp⟩
    · have hr1 : rstAsserted s = false := noReset_one.1 (noReset_mono (by omega) hr)
      obtain ⟨u, hu⟩ := step_total hr1 fun _ => hI.bitIdx_le
      have he := endOfDwell_inv (s := phaseOverNow s) hp ((step_busy_eq hr1 hp).symm.trans hu)
      have hlt : phasesLeft u.phase u.bitIdx.toNat < phasesLeft s.phase s.bitIdx.toNat :=
        DwellEnd.phasesLeft_lt (s := phaseOverNow s) hp hI.bitIdx_le he
      have hru : noReset n u := fun j hj => by rw [step_rstInputs hu]; exact noReset_tail hr j hj
      obtain ⟨k, t, hk, hrun, ht⟩ := ih (step_inv hI hu) hru (by omega)
      exact ⟨k + 1, t, by omega, (core_run_cons hu).trans hrun, ht⟩

/-! ## Counts over a trace -/

@[simp] theorem writesIn_append (a b : List Event) : writesIn (a ++ b) = writesIn a + writesIn b := by
  simp [writesIn]

@[simp] theorem heldTime_append (a b : List Event) : heldTime (a ++ b) = heldTime a + heldTime b := by
  simp [heldTime]

/-- The writes and the holds of the first `n` bit-cells: two of each in every one. -/
theorem cellsTrace_counts (m : Message) (d n : Nat) :
    writesIn (cellsTrace m d n) = 2 * n ∧ heldTime (cellsTrace m d n) = 2 * n * d := by
  induction n with
  | zero => exact ⟨rfl, by simp [cellsTrace, heldTime]⟩
  | succ n ih =>
    obtain ⟨hw, hh⟩ := ih
    have hw1 : writesIn (cellTrace m d n) = 2 := rfl
    have hh1 : heldTime (cellTrace m d n) = 2 * d := by simp [heldTime, cellTrace]; omega
    simp only [cellsTrace, writesIn_append, heldTime_append, hw, hh, hw1, hh1]
    exact ⟨by omega, by ring⟩

theorem writesIn_traceOf (m : Message) (d : Nat) : writesIn (traceOf m d) = 82 := by
  have hhead : writesIn [.wrote .reset, .held d, .wrote .standby, .held Config.tSettle.toNat] = 2 := rfl
  have hlast : writesIn [.held Config.tQuiet.toNat] = 0 := rfl
  simp only [traceOf, writesIn_append, (cellsTrace_counts m d _).1, hhead, hlast, Config.nBits]

theorem heldTime_traceOf (m : Message) (d : Nat) : heldTime (traceOf m d) = 1035000 + 81 * d := by
  have hhead : heldTime [.wrote .reset, .held d, .wrote .standby, .held Config.tSettle.toNat] = d + 35000 := by
    simp [heldTime, Config.tSettle]
  have hlast : heldTime [.held Config.tQuiet.toNat] = 1000000 := by simp [heldTime, Config.tQuiet]
  simp only [traceOf, heldTime_append, (cellsTrace_counts m d _).2, hhead, hlast, Config.nBits]
  omega

/-- Once a pair has begun, every write adds one pair and every hold its time (90_conflicts C6). -/
theorem statePairsFrom_counts (acc : List (LineState × Nat)) (hacc : acc ≠ []) (es : List Event) :
    (statePairsFrom acc es).length = acc.length + writesIn es
    ∧ ((statePairsFrom acc es).map Prod.snd).sum = (acc.map Prod.snd).sum + heldTime es := by
  induction es generalizing acc with
  | nil => simp [statePairsFrom, writesIn, heldTime]
  | cons e es ih =>
    cases e with
    | wrote ls =>
      obtain ⟨hl, hs⟩ := ih ((ls, 0) :: acc) (by simp)
      simp only [statePairsFrom, hl, hs]
      simp [writesIn, heldTime]; omega
    | failed ls =>
      obtain ⟨hl, hs⟩ := ih acc hacc
      simp only [statePairsFrom, hl, hs]
      simp [writesIn, heldTime]
    | held n =>
      obtain ⟨⟨ls, u⟩, rest, rfl⟩ := List.exists_cons_of_ne_nil hacc
      obtain ⟨hl, hs⟩ := ih ((ls, u + n) :: rest) (by simp)
      simp only [statePairsFrom, hl, hs]
      simp [writesIn, heldTime]; omega

/-- A trace that begins with a write has a pair for each of its writes, and the pairs hold all of its time. -/
theorem statePairs_counts (ls : LineState) (es : List Event) :
    (statePairs (.wrote ls :: es)).length = writesIn (.wrote ls :: es)
    ∧ ((statePairs (.wrote ls :: es)).map Prod.snd).sum = heldTime (.wrote ls :: es) := by
  obtain ⟨hl, hs⟩ := statePairsFrom_counts [(ls, 0)] (by simp) es
  rw [statePairs, statePairsFrom, hl, hs]
  simp [writesIn, heldTime]; omega

/-! ## The statements -/

/-- Settles O53: a transmission has 83 phases left at most. -/
theorem everyTransmissionEnds : Obligations.EveryTransmissionEnds :=
  fun _ hI _ hr => run_reaches_idle hI hr (phasesLeft_le _ _)

/-- Settles O54: TraceOf begins with a write, and its writes and holds are those of 40 bit-cells and of the phases around
them. -/
theorem traceHasItsCountsAndDuration : Obligations.TraceHasItsCountsAndDuration := by
  intro m d
  obtain ⟨hl, hs⟩ := statePairs_counts .reset (traceOf m d).tail
  exact ⟨traceOf_length m d, writesIn_traceOf m d, heldTime_traceOf m d, hl.trans (writesIn_traceOf m d),
    hs.trans (heldTime_traceOf m d)⟩

end Sys2Proof.Machine
end

section
/-! The clock level (41_transmitter R118 to R120): its edges in IDLE, its invariant, and the edges of one phase as one
phase-level step. At the end the conversion of milliseconds (42_command_surface R128). -/

namespace Sys2Proof.Machine

/-! ## The clock's own fields -/

/-- `s` with the prescaler, the time and the dwell counter of the clock level. -/
def withClock (presc now : Nat) (dwell : Delay) (s : State) : State :=
  { s with presc := presc, now := now, dwell := dwell }

/-- The host's line comes whatever the clock's fields are. -/
theorem loadPorts_withClock (c n : Nat) (d : Delay) (s : State) :
    loadPorts (withClock c n d s) = withClock c n d (loadPorts s) := by
  by_cases hw : s.initPort = none ∧ s.cmdPort = none
  · cases hp : s.program with
    | nil => rw [loadPorts_of_empty (s := withClock c n d s) hp, loadPorts_of_empty hp]
    | cons l rest => cases l <;> simp [loadPorts, withClock, hw, hp]
  · have hw : s.initPort ≠ none ∨ s.cmdPort ≠ none := by tauto
    rw [loadPorts_of_waiting (s := withClock c n d s) hw, loadPorts_of_waiting hw]

/-- So does the beginning of a step. -/
theorem beginStep_withClock (c n : Nat) (d : Delay) (s : State) :
    beginStep (withClock c n d s) = withClock c n d (beginStep s) := by
  rw [beginStep, loadPorts_withClock]; rfl

/-- The beginning of a step leaves the clock's fields. -/
theorem withClock_beginStep_self (s : State) : withClock s.presc s.now s.dwell (beginStep s) = beginStep s := by
  rw [← beginStep_presc s, ← beginStep_now s, ← beginStep_dwell s]; rfl

theorem withClock_beginStep (c : Nat) (s : State) :
    withClock c s.now s.dwell (beginStep s) = { beginStep s with presc := c } := by
  rw [← beginStep_now s, ← beginStep_dwell s]; rfl

/-- In IDLE an edge is a phase-level step with the prescaler at rest (41_transmitter R118). -/
theorem clockStep_idle (clkHz : Nat) {s : State} (hp : s.phase = .idle) :
    clockStep clkHz s = step (withClock 0 s.now s.dwell s) := by
  cases hr : rstAsserted s with
  | false =>
    rw [step_of_idle (s := withClock 0 s.now s.dwell s) hr hp, beginStep_withClock, withClock_beginStep]
    simp [clockStep, hr, hp]
  | true =>
    rw [step_of_reset (s := withClock 0 s.now s.dwell s) hr, beginStep_withClock, withClock_beginStep]
    simp [clockStep, hr, hardwareReset]

/-! ## The invariant of the clock level -/

theorem clockDiv_pos {clkHz : Nat} (h : 1000000 ≤ clkHz) : 0 < clockDiv clkHz := Nat.div_pos h (by omega)

/-- Every phase of a transmission lasts, if the bit delay does. -/
theorem phaseDuration_pos {p : Phase} (hp : p ≠ .idle) {d : Delay} (hd : 1 ≤ d.toNat) :
    1 ≤ (phaseDuration p d).toNat := by
  cases p with
  | idle => exact absurd rfl hp
  | reset => exact hd
  | settle => exact (by decide : 1 ≤ Config.tSettle.toNat)
  | data => exact hd
  | gap => exact hd
  | quiet => exact (by decide : 1 ≤ Config.tQuiet.toNat)

/-- In IDLE the clock level's invariant speaks of the registers only. -/
theorem clockInv_of_idle {clkHz : Nat} {s : State} (hp : s.phase = .idle) (hc : s.presc < clockDiv clkHz)
    (hi : s.bitIdx.toNat ≤ 39) (hd : s.initialized = true → 500 ≤ s.config.bitDelay.toNat) : ClockInv clkHz s :=
  ⟨hc, fun hb => absurd hp hb, hi, hd, fun hb => absurd hp hb⟩

/-- A phase begins with its whole duration. -/
theorem clockInv_enterPhase {clkHz : Nat} {s : State} {q : Phase} (hq : q ≠ .idle) (hc : s.presc < clockDiv clkHz)
    (hi : s.bitIdx.toNat ≤ 39) (hinit : s.initialized = true) (hd : 500 ≤ s.config.bitDelay.toNat) :
    ClockInv clkHz (enterPhase q s) :=
  ⟨hc, fun _ => ⟨phaseDuration_pos hq (by omega), le_rfl⟩, hi, fun _ => hd, fun _ => hinit⟩

/-- A line write of a transmission keeps the clock level's invariant, failed or not. -/
theorem clockInv_lineWrite {clkHz : Nat} {s : State} {q : Phase} (hq : q ≠ .idle) (hc : s.presc < clockDiv clkHz)
    (hi : s.bitIdx.toNat ≤ 39) (hinit : s.initialized = true) (hd : 500 ≤ s.config.bitDelay.toNat) (ls : LineState) :
    ClockInv clkHz (lineWrite ls (enterPhase q) s) := by
  rcases lineWrite_cases ls (enterPhase q) s with ⟨-, hw⟩ | ⟨-, hw⟩ <;> rw [hw]
  · exact clockInv_enterPhase (s := lineWritten ls s) hq hc hi hinit hd
  · exact clockInv_of_idle (s := lineFailed ls s) rfl hc hi fun _ => hd

/-- The assignment to `bit_idx` keeps it in range. -/
theorem nextBitIdx_le {s : State} (hi : s.bitIdx.toNat ≤ 39) : (nextBitIdx s).toNat ≤ 39 := by
  cases hp : s.phase with
  | idle => simpa only [nextBitIdx, hp] using hi
  | reset => simpa only [nextBitIdx, hp] using hi
  | settle => simp [nextBitIdx, hp]
  | data => simpa only [nextBitIdx, hp] using hi
  | gap =>
    simp only [nextBitIdx, hp]
    split
    · next hlt => rw [bitIdx_succ hlt]; omega
    · exact hi
  | quiet => simpa only [nextBitIdx, hp] using hi

/-- The end of a busy phase keeps the clock level's invariant. -/
theorem clockInv_of_dwellEnd {clkHz : Nat} {s t : State} (hc : s.presc < clockDiv clkHz) (hi : s.bitIdx.toNat ≤ 39)
    (hinit : s.initialized = true) (hd : 500 ≤ s.config.bitDelay.toNat) (h : DwellEnd s t) : ClockInv clkHz t := by
  cases h with
  | writes ls hw _ ht =>
    exact ht ▸ clockInv_lineWrite (s := { endHold s with bitIdx := nextBitIdx s }) (nextPhase_ne_idle hw) hc
      (nextBitIdx_le hi) hinit hd ls
  | lastGap _ _ ht => exact ht ▸ clockInv_enterPhase (s := endHold s) (by decide) hc hi hinit hd
  | quiet _ ht => exact ht ▸ clockInv_of_idle rfl hc hi fun _ => hd

/-- A phase-level step from IDLE, prescaler at rest, keeps the clock level's invariant. -/
theorem clockInv_step_idle {clkHz : Nat} {s t : State} (hdiv : 0 < clockDiv clkHz) (hp : s.phase = .idle)
    (hc : s.presc = 0) (hi : s.bitIdx.toNat ≤ 39) (hd : s.initialized = true → 500 ≤ s.config.bitDelay.toNat)
    (h : step s = .next t) : ClockInv clkHz t := by
  have hc : s.presc < clockDiv clkHz := hc ▸ hdiv
  cases stepKind_of_step h with
  | reset hr =>
    rw [Host.Outcome.next.inj (h.symm.trans (step_of_reset hr))]
    exact clockInv_of_idle rfl hdiv (by simp) (by simp)
  | nothing hp ht => exact ht ▸ clockInv_of_idle (s := sendTaken s) hp hc hi hd
  | refused _ e b ht => exact ht ▸ clockInv_of_idle rfl hc hi hd
  | configured hp p q d _ hlegal ht =>
    subst ht
    exact clockInv_of_idle (by simp [hp]) (by simpa using hc) (by simpa using hi) fun _ => by simpa using hlegal
  | started _ _ _ _ _ _ hinit m ht =>
    exact ht ▸ clockInv_lineWrite (s := { sendTaken s with msg := m }) (by decide) hc hi hinit (hd hinit) .reset
  | phaseEnds hb _ => exact absurd hp hb

/-! ## Edges while busy -/

theorem clockStep_of_reset (clkHz : Nat) {s : State} (hr : rstAsserted s = true) :
    clockStep clkHz s = .next (hardwareReset (beginStep s)) := if_pos hr

/-- While busy and between two ticks an edge counts the prescaler (41_transmitter R118). -/
theorem clockStep_count {clkHz : Nat} {s : State} (hr : rstAsserted s = false) (hb : s.phase ≠ .idle)
    (hc : s.presc ≠ clockDiv clkHz - 1) : clockStep clkHz s = .next { beginStep s with presc := s.presc + 1 } := by
  simp [clockStep, hr, hb, hc]

/-- While busy every `DIV`-th edge is a tick (41_transmitter R119). -/
theorem clockStep_tick {clkHz : Nat} {s : State} (hr : rstAsserted s = false) (hb : s.phase ≠ .idle)
    (hc : s.presc = clockDiv clkHz - 1) : clockStep clkHz s = tick (beginStep s) := by
  simp [clockStep, hr, hb, hc]

theorem tick_count {s : State} (h : 1 < s.dwell.toNat) :
    tick s = .next (withClock 0 (s.now + 1) (s.dwell - 1#20) s) := if_pos h

theorem tick_last {s : State} (h : s.dwell.toNat ≤ 1) : tick s = endOfDwell (withClock 0 (s.now + 1) s.dwell s) :=
  if_neg (by omega)

/-- The dwell counter goes down by one. -/
theorem toNat_sub_one {d : Delay} (h : 1 ≤ d.toNat) : (d - 1#20).toNat = d.toNat - 1 := by
  bv_omega

theorem ClockInv.beginStep {clkHz : Nat} {s : State} (h : ClockInv clkHz s) : ClockInv clkHz (beginStep s) := by
  rw [beginStep_eq_hostStep]
  exact ⟨h.presc_lt, h.dwell_range, h.bitIdx_le, h.initialized_config, h.busy_initialized⟩

/-- A tick keeps the clock level's invariant. -/
theorem clockInv_tick {clkHz : Nat} {s t : State} (hdiv : 0 < clockDiv clkHz) (hI : ClockInv clkHz s)
    (hb : s.phase ≠ .idle) (h : tick s = .next t) : ClockInv clkHz t := by
  obtain ⟨hd1, hdmax⟩ := hI.dwell_range hb
  have hinit := hI.busy_initialized hb
  by_cases hlt : 1 < s.dwell.toNat
  · obtain rfl := Host.Outcome.next.inj ((tick_count hlt).symm.trans h)
    have hd : (s.dwell - 1#20).toNat = s.dwell.toNat - 1 := toNat_sub_one hd1
    exact ⟨hdiv, fun _ => by simp only [withClock, hd]; omega, hI.bitIdx_le, hI.initialized_config,
      hI.busy_initialized⟩
  · have he := endOfDwell_inv (s := withClock 0 (s.now + 1) s.dwell s) hb ((tick_last (by omega)).symm.trans h)
    exact clockInv_of_dwellEnd (s := withClock 0 (s.now + 1) s.dwell s) hdiv hI.bitIdx_le hinit
      (hI.initialized_config hinit) he

theorem clockStep_inv {clkHz : Nat} {s t : State} (hdiv : 0 < clockDiv clkHz) (hI : ClockInv clkHz s)
    (h : clockStep clkHz s = .next t) : ClockInv clkHz t := by
  by_cases hp : s.phase = .idle
  · rw [clockStep_idle clkHz hp] at h
    exact clockInv_step_idle (s := withClock 0 s.now s.dwell s) hdiv hp rfl hI.bitIdx_le hI.initialized_config h
  · cases hr : rstAsserted s with
    | true =>
      rw [Host.Outcome.next.inj (h.symm.trans (clockStep_of_reset clkHz hr))]
      exact clockInv_of_idle rfl hdiv (by simp) (by simp)
    | false =>
      have hu := hI.beginStep
      by_cases hc : s.presc = clockDiv clkHz - 1
      · rw [clockStep_tick hr hp hc] at h
        exact clockInv_tick hdiv hu (by simpa using hp) h
      · rw [← Host.Outcome.next.inj ((clockStep_count hr hp hc).symm.trans h)]
        have hlt := hI.presc_lt
        exact ⟨by simp only; omega, hu.dwell_range, hu.bitIdx_le, hu.initialized_config, hu.busy_initialized⟩

theorem tick_total {s : State} (h : s.bitIdx.toNat ≤ 39) : ∃ t, tick s = .next t := by
  by_cases hlt : 1 < s.dwell.toNat
  · exact ⟨_, tick_count hlt⟩
  · rw [tick_last (by omega)]; exact endOfDwell_total h

/-- No edge stops where `bit_idx` is in range. -/
theorem clockStep_total (clkHz : Nat) {s : State} (h : s.bitIdx.toNat ≤ 39) : ∃ t, clockStep clkHz s = .next t := by
  cases hr : rstAsserted s with
  | true => exact ⟨_, clockStep_of_reset clkHz hr⟩
  | false =>
    by_cases hp : s.phase = .idle
    · rw [clockStep_idle clkHz hp]
      exact step_total hr fun _ => h
    · by_cases hc : s.presc = clockDiv clkHz - 1
      · rw [clockStep_tick hr hp hc]; exact tick_total (by simpa using h)
      · exact ⟨_, clockStep_count hr hp hc⟩

/-- A run of clock edges goes on as long as the invariant is kept. -/
theorem clockRun_total {clkHz : Nat} (hdiv : 0 < clockDiv clkHz) (n : Nat) {s : State} (hI : ClockInv clkHz s) :
    ∃ t, clockRun clkHz n s = .next t := by
  induction n generalizing s with
  | zero => exact ⟨s, rfl⟩
  | succ n ih =>
    obtain ⟨u, hu⟩ := clockStep_total clkHz hI.bitIdx_le
    rw [clockRun_cons hu]
    exact ih (clockStep_inv hdiv hI hu)

/-! ## The edges of one phase

Below `s` is a state at the beginning of whose steps nothing comes any more, so that an edge changes the clock's fields
only, until the last tick of the phase. -/

section
variable {clkHz : Nat} {s : State} (hs : beginStep s = s) (hr : rstAsserted s = false) (hb : s.phase ≠ .idle)
include hs hr hb

/-- The edges of one µs before its tick. -/
theorem clockRun_count (n : Nat) (d : Delay) {c : Nat} (hc : c ≤ clockDiv clkHz - 1) :
    clockRun clkHz c (withClock 0 n d s) = .next (withClock c n d s) := by
  induction c with
  | zero => rfl
  | succ c ih =>
    have hne : c ≠ clockDiv clkHz - 1 := by omega
    rw [clockRun_snoc (ih (by omega)), clockStep_count (s := withClock c n d s) hr hb hne, beginStep_withClock, hs]
    rfl

/-- The edges of one µs. -/
theorem clockRun_tick (hdiv : 0 < clockDiv clkHz) (n : Nat) (d : Delay) :
    clockRun clkHz (clockDiv clkHz) (withClock 0 n d s) = tick (withClock (clockDiv clkHz - 1) n d s) := by
  have hrun := clockRun_snoc (clockRun_count hs hr hb n d (clkHz := clkHz) le_rfl)
  rw [Nat.sub_add_cancel hdiv] at hrun
  rw [hrun, clockStep_tick (s := withClock (clockDiv clkHz - 1) n d s) hr hb rfl, beginStep_withClock, hs]

/-- The edges of all the µs the phase has left end it with one µs on the dwell counter. -/
theorem clockRun_phase (hdiv : 0 < clockDiv clkHz) {k : Nat} (n : Nat) {d : Delay} (hd : d.toNat = k + 1) :
    clockRun clkHz ((k + 1) * clockDiv clkHz) (withClock 0 n d s) = endOfDwell (withClock 0 (n + (k + 1)) 1#20 s) := by
  induction k generalizing n d with
  | zero =>
    obtain rfl : d = 1#20 := BitVec.eq_of_toNat_eq hd
    rw [Nat.zero_add, Nat.one_mul, clockRun_tick hs hr hb hdiv, tick_last le_rfl]
    rfl
  | succ k ih =>
    have hmore : 1 < d.toNat := by omega
    have hrest : (d - 1#20).toNat = k + 1 := by rw [toNat_sub_one (by omega)]; omega
    have htick := (clockRun_tick hs hr hb hdiv n d).trans (tick_count hmore)
    rw [Nat.succ_mul, Nat.add_comm, clockRun_append htick]
    rw [show n + (k + 1 + 1) = n + 1 + (k + 1) by omega]
    exact ih (n + 1) hrest

end

/-- The end of a busy phase does not look at the dwell counter: it loads it anew (10_state R22). -/
theorem endOfDwell_dwell {s : State} (hb : s.phase ≠ .idle) (c n : Nat) (d d' : Delay) :
    endOfDwell (withClock c n d s) = endOfDwell (withClock c n d' s) := by
  cases hp : s.phase with
  | idle => exact absurd hp hb
  | reset => simp only [endOfDwell, withClock, hp]; rfl
  | settle => simp only [endOfDwell, withClock, hp]; rfl
  | data => simp only [endOfDwell, withClock, hp]; rfl
  | gap => simp only [endOfDwell, withClock, hp]; rfl
  | quiet => simp only [endOfDwell, withClock, hp]; rfl

/-- With no reset samples left the first edge is the same before and after the host's line has come. -/
theorem clockRun_beginStep (clkHz : Nat) {n : Nat} (hn : 1 ≤ n) {s : State} (h : s.rstInputs = []) :
    clockRun clkHz n (beginStep s) = clockRun clkHz n s := by
  obtain ⟨m, rfl⟩ : ∃ m, n = m + 1 := ⟨n - 1, by omega⟩
  have hstep : clockStep clkHz (beginStep s) = clockStep clkHz s := by
    simp [clockStep, rstAsserted, h, beginStep_beginStep h]
  simp only [clockRun, hstep]

/-- A busy phase-level step, in terms of the clock's fields. -/
theorem step_busy_eq_withClock {s : State} (hr : rstAsserted s = false) (hb : s.phase ≠ .idle) :
    step s = endOfDwell (withClock s.presc (s.now + s.dwell.toNat) s.dwell (beginStep s)) := by
  rw [step_of_busy hr hb, ← beginStep_presc s, ← beginStep_now s, ← beginStep_dwell s]
  rfl

/-! ## Milliseconds -/

theorem delayOfMs_spec {num den : Nat} {d : Delay} (h : delayOfMs num den = some d) : d.toNat * den = num * 1000 := by
  unfold delayOfMs at h
  split at h
  · next hc =>
    obtain ⟨-, hmod, hle⟩ := hc
    obtain rfl := Option.some.inj h
    rw [BitVec.toNat_ofNat, Nat.mod_eq_of_lt (by omega), Nat.div_mul_cancel (Nat.dvd_of_mod_eq_zero hmod)]
  · cases h

theorem delayOfMs_of_whole {num den us : Nat} (hden : den ≠ 0) (hus : us * den = num * 1000) (hle : us ≤ 1048575) :
    delayOfMs num den = some (BitVec.ofNat 20 us) := by
  have hdiv : num * 1000 / den = us := by rw [← hus, Nat.mul_div_cancel us (Nat.pos_of_ne_zero hden)]
  have hmod : num * 1000 % den = 0 := by rw [← hus, Nat.mul_mod_left]
  rw [delayOfMs, hdiv, if_pos ⟨hden, hmod, hle⟩]

/-! ## The statements -/

/-- Settles O56: a number of µs times the denominator is the numerator in µs, and determines it. -/
theorem millisecondsConvertToWholeMicroseconds : Obligations.MillisecondsConvertToWholeMicroseconds :=
  ⟨fun _ _ _ h => delayOfMs_spec h, fun _ _ _ hden hus hle => delayOfMs_of_whole hden hus hle, by decide, by decide⟩

/-- Settles O57: the first edge takes what the host offers, all edges but the last count, and the last ends the phase. -/
theorem clockEdgesOfAPhaseAreOnePhaseStep : Obligations.ClockEdgesOfAPhaseAreOnePhaseStep := by
  intro div s hdiv hb hc hd hrst
  have hdiv' : clockDiv (1000000 * div) = div := Nat.mul_div_cancel_left div (by omega)
  have hr : rstAsserted s = false := by simp [rstAsserted, hrst]
  obtain ⟨k, hk⟩ : ∃ k, s.dwell.toNat = k + 1 := ⟨s.dwell.toNat - 1, by omega⟩
  have hphase := clockRun_phase (clkHz := 1000000 * div) (s := beginStep s) (beginStep_beginStep hrst)
    (by simp [rstAsserted, hrst]) (by simpa using hb) (by omega) s.now hk
  rw [hdiv', ← hc, withClock_beginStep_self] at hphase
  rw [hk, ← clockRun_beginStep _ (Nat.mul_pos k.succ_pos hdiv) hrst, step_busy_eq_withClock hr hb, hk, hphase]
  exact endOfDwell_dwell (by simpa using hb) _ _ _ _

/-- Settles O58: the prescaler is at rest already. -/
theorem clockEdgeInIdleIsAPhaseStep : Obligations.ClockEdgeInIdleIsAPhaseStep := by
  intro clkHz s hp hc
  rw [clockStep_idle clkHz hp, ← hc]; rfl

/-- Settles O59: an edge in IDLE is a phase-level step; while busy it counts, ticks, or ends the phase. -/
theorem clockInvIsKeptByEveryEdge : Obligations.ClockInvIsKeptByEveryEdge :=
  fun _ _ _ hclk hI h => clockStep_inv (clockDiv_pos hclk) hI h

/-- Settles O60: every edge from the invariant answers a next state and keeps the invariant. -/
theorem clockRunsNeverStop : Obligations.ClockRunsNeverStop :=
  fun _ n _ hclk hI => clockRun_total (clockDiv_pos hclk) n hI

end Sys2Proof.Machine
end
